-- ==== Sys2Proof/Word.lean ====
section
/-!
DEFINITION. The word types of the CHIP-8 interpreter core: bytes, 16-bit words, the 12-bit immediate
address, and the numbers that index registers and keys.
All values are unsigned (spec/00_scope.md R6).
-/

namespace Sys2Proof

/-- One byte: a general register, a timer, a byte of memory, the immediate `kk` (R11, R15, R16, R18). -/
abbrev Byte := BitVec 8

/-- A 16-bit word: `I`, `pc`, a stack entry, an instruction word (R13, R14, R17, R60). -/
abbrev Word := BitVec 16

/-- The 12-bit immediate address `nnn` (R61, R63). -/
abbrev Imm12 := BitVec 12

/-- A register number, 0 to 15: the fields `x` and `y`.  All sixteen are legal everywhere (R63). -/
abbrev Reg := Fin 16

/-- A key number, 0x0 to 0xF (R20, R225). -/
abbrev Key := Fin 16

/-- Register number 15: `VF`, the flag register (R12). -/
abbrev regF : Reg := 15

/-- `zext_16`: every widening of this hardware is a zero extension (R7). -/
def zext16 (v : BitVec w) : Word := v.setWidth 16

end Sys2Proof
end

