-- ==== Sys2Proof/Syntax.lean ====
section
/-!
DEFINITION. The instruction set: one constructor for each of the 34 rows of R64
(spec/30_encoding.md, spec/opcode_table.json).  The bounds of the operand fields (R61, R63) are in
their types, so every term is an instruction the hardware has.
-/

namespace Sys2Proof

/-- The 34 instructions of R64, in the table's order. -/
inductive Instr where
  /-- 00E0 `CLS` (R171). -/
  | cls
  /-- 00EE `RET` (R101). -/
  | ret
  /-- 1nnn `JP nnn` (R102). -/
  | jp (nnn : Imm12)
  /-- 2nnn `CALL nnn` (R103). -/
  | call (nnn : Imm12)
  /-- 3xkk `SE Vx, kk` (R104). -/
  | seImm (x : Reg) (kk : Byte)
  /-- 4xkk `SNE Vx, kk` (R105). -/
  | sneImm (x : Reg) (kk : Byte)
  /-- 5xy0 `SE Vx, Vy` (R106). -/
  | seReg (x y : Reg)
  /-- 6xkk `LD Vx, kk` (R121). -/
  | ldImm (x : Reg) (kk : Byte)
  /-- 7xkk `ADD Vx, kk` (R122). -/
  | addImm (x : Reg) (kk : Byte)
  /-- 8xy0 `LD Vx, Vy` (R123). -/
  | ldReg (x y : Reg)
  /-- 8xy1 `OR Vx, Vy` (R124). -/
  | orReg (x y : Reg)
  /-- 8xy2 `AND Vx, Vy` (R125). -/
  | andReg (x y : Reg)
  /-- 8xy3 `XOR Vx, Vy` (R126). -/
  | xorReg (x y : Reg)
  /-- 8xy4 `ADD Vx, Vy` (R127). -/
  | addReg (x y : Reg)
  /-- 8xy5 `SUB Vx, Vy` (R128). -/
  | subReg (x y : Reg)
  /-- 8xy6 `SHR Vx, Vy` (R129). -/
  | shrReg (x y : Reg)
  /-- 8xy7 `SUBN Vx, Vy` (R130). -/
  | subnReg (x y : Reg)
  /-- 8xyE `SHL Vx, Vy` (R131). -/
  | shlReg (x y : Reg)
  /-- 9xy0 `SNE Vx, Vy` (R107). -/
  | sneReg (x y : Reg)
  /-- Annn `LD I, nnn` (R141). -/
  | ldI (nnn : Imm12)
  /-- Bnnn `JP V0, nnn` (R108). -/
  | jpV0 (nnn : Imm12)
  /-- Cxkk `RND Vx, kk` (R164). -/
  | rnd (x : Reg) (kk : Byte)
  /-- Dxyn `DRW Vx, Vy, n` (R172): `n` is a count of rows, 0 to 15. -/
  | drw (x y : Reg) (n : Fin 16)
  /-- Ex9E `SKP Vx` (R191). -/
  | skp (x : Reg)
  /-- ExA1 `SKNP Vx` (R192). -/
  | sknp (x : Reg)
  /-- Fx07 `LD Vx, DT` (R194). -/
  | ldVxDt (x : Reg)
  /-- Fx0A `LD Vx, K` (R193). -/
  | ldVxKey (x : Reg)
  /-- Fx15 `LD DT, Vx` (R195). -/
  | ldDtVx (x : Reg)
  /-- Fx18 `LD ST, Vx` (R196). -/
  | ldStVx (x : Reg)
  /-- Fx1E `ADD I, Vx` (R142). -/
  | addI (x : Reg)
  /-- Fx29 `LD F, Vx` (R143). -/
  | ldFont (x : Reg)
  /-- Fx33 `LD B, Vx` (R144). -/
  | ldBcd (x : Reg)
  /-- Fx55 `LD [I], Vx` (R145). -/
  | ldMemVx (x : Reg)
  /-- Fx65 `LD Vx, [I]` (R146). -/
  | ldVxMem (x : Reg)
  deriving DecidableEq, Repr

end Sys2Proof
end

