-- ==== Sys2Proof/WellFormed.lean ====
section
/-!
DEFINITION. Which words are instructions: the opcode table of R64 as data, a row for each of the 34
patterns with the mask and match the table prints.  A word is well formed when it matches a row; any
other word is an unknown opcode (R67).  The table is written apart from the decoder, which follows
the case procedure of R66, so that the two presentations can be held against each other.
-/

namespace Sys2Proof

/-- One row of R64: a word `w` is the instruction when `w AND mask = pattern`. -/
structure OpRow where
  mask : Word
  pattern : Word
  deriving DecidableEq, Repr

/-- `w` is an instruction of this row (R64). -/
def OpRow.fits (r : OpRow) (w : Word) : Bool := w &&& r.mask == r.pattern

/-- Rows 1 to 9 of R64: 00E0 to 7xkk. -/
def opRowsLow : List OpRow :=
  [⟨0xFFFF, 0x00E0⟩, ⟨0xFFFF, 0x00EE⟩, ⟨0xF000, 0x1000⟩, ⟨0xF000, 0x2000⟩, ⟨0xF000, 0x3000⟩,
   ⟨0xF000, 0x4000⟩, ⟨0xF00F, 0x5000⟩, ⟨0xF000, 0x6000⟩, ⟨0xF000, 0x7000⟩]

/-- Rows 10 to 18 of R64: the 8xy_ group. -/
def opRowsAlu : List OpRow :=
  [⟨0xF00F, 0x8000⟩, ⟨0xF00F, 0x8001⟩, ⟨0xF00F, 0x8002⟩, ⟨0xF00F, 0x8003⟩, ⟨0xF00F, 0x8004⟩,
   ⟨0xF00F, 0x8005⟩, ⟨0xF00F, 0x8006⟩, ⟨0xF00F, 0x8007⟩, ⟨0xF00F, 0x800E⟩]

/-- Rows 19 to 25 of R64: 9xy0 to ExA1. -/
def opRowsHigh : List OpRow :=
  [⟨0xF00F, 0x9000⟩, ⟨0xF000, 0xA000⟩, ⟨0xF000, 0xB000⟩, ⟨0xF000, 0xC000⟩, ⟨0xF000, 0xD000⟩,
   ⟨0xF0FF, 0xE09E⟩, ⟨0xF0FF, 0xE0A1⟩]

/-- Rows 26 to 34 of R64: the Fx__ group. -/
def opRowsMisc : List OpRow :=
  [⟨0xF0FF, 0xF007⟩, ⟨0xF0FF, 0xF00A⟩, ⟨0xF0FF, 0xF015⟩, ⟨0xF0FF, 0xF018⟩, ⟨0xF0FF, 0xF01E⟩,
   ⟨0xF0FF, 0xF029⟩, ⟨0xF0FF, 0xF033⟩, ⟨0xF0FF, 0xF055⟩, ⟨0xF0FF, 0xF065⟩]

/-- The opcode table of R64: its 34 masks and patterns, in the table's order. -/
def opcodeTable : List OpRow := opRowsLow ++ opRowsAlu ++ opRowsHigh ++ opRowsMisc

/-- A word is an instruction: some row of R64 fits it.  The rest are the unknown opcodes of R67. -/
def wordWellFormed (w : Word) : Bool := opcodeTable.any (·.fits w)

end Sys2Proof
end

