-- ==== Sys2Proof/Config.lean ====
section
/-!
DEFINITION. What is fixed for one build of the core: the constants of R5, and the parameters R5 marks
OPEN (`SHIFT_SRC`, `RNG_W`, `RNG_A`, `RNG_C`, `RNG_SEED`, `RNG_OUT_LO`, `FONT`).  An OPEN parameter is
a constant without a body: nothing can be proved about its value, so a theorem of this model holds
for every choice of it.  `STEP_HZ` is timing and enters no rule (R265).
-/

namespace Sys2Proof

/-- Which register 8xy6 and 8xyE shift: the two settings of `SHIFT_SRC` (R5, R129; D4). -/
inductive ShiftSrc where
  /-- `V[x]` is shifted and the `y` field is ignored. -/
  | vx
  /-- `V[y]` is shifted into `V[x]`. -/
  | vy
  deriving DecidableEq, Repr, Inhabited

/-- `SHIFT_SRC`, OPEN (R5; D4).  Log 1. -/
opaque Config.shiftSrc : ShiftSrc

/-- `RNG_W`, OPEN (R5, R163; D6): the width of the generator in bits.  Log 2. -/
opaque Config.rngW : Nat

/-- `RNG_A`, OPEN (R5, R163; D6): the multiplier.  Log 2. -/
opaque Config.rngA : Nat

/-- `RNG_C`, OPEN (R5, R163; D6): the increment.  Log 2. -/
opaque Config.rngC : Nat

/-- `RNG_SEED`, OPEN (R5, R163; D6): the state after reset.  Log 2. -/
opaque Config.rngSeed : Nat

/-- `RNG_OUT_LO`, OPEN (R5, R163; D6): the lowest bit of the output byte.  Log 2. -/
opaque Config.rngOutLo : Nat

/-- `FONT[0..79]`, OPEN (R5, R23; D7): sixteen glyphs of five bytes.  Log 3. -/
opaque Config.font : Fin 80 → Byte

/-- `PROG_BASE`: the first byte of a loaded program, and `pc` after reset (R5). -/
def Config.progBase : Nat := 0x200

/-- `FONT_BASE`: the first byte of the glyph font (R5). -/
def Config.fontBase : Nat := 0x000

/-- `GLYPH_BYTES`: bytes per glyph (R5). -/
def Config.glyphBytes : Nat := 5

/-- `MEM_SIZE`: bytes of memory (R5). -/
def Config.memSize : Nat := 4096

end Sys2Proof
end

