-- ==== Sys2Proof/Machine/Params.lean ====
section
/-!
DEFINITION. The parameters of R5 as the machine uses them.  Every use of an OPEN parameter in the
machine goes through this file, and nowhere else does the machine name `Config`'s open constants.
-/

namespace Sys2Proof.Machine

/-- `SHIFT_SRC` (R129, R131).  OPEN: log 1. -/
def Params.shiftSrc : ShiftSrc := Config.shiftSrc

/-- `RNG_W` (R161).  OPEN: log 2. -/
def Params.rngW : Nat := Config.rngW

/-- `RNG_A` (R161).  OPEN: log 2. -/
def Params.rngA : Nat := Config.rngA

/-- `RNG_C` (R161).  OPEN: log 2. -/
def Params.rngC : Nat := Config.rngC

/-- `RNG_SEED`, a value of `RNG_W` bits (R161, R250).  OPEN: log 2. -/
def Params.rngSeed : Nat := Config.rngSeed % 2 ^ Params.rngW

/-- `RNG_OUT_LO` (R162).  OPEN: log 2. -/
def Params.rngOutLo : Nat := Config.rngOutLo

/-- `FONT[k]` (R23).  OPEN: log 3. -/
def Params.font (k : Fin 80) : Byte := Config.font k

/-- `PROG_BASE` as an address: `pc` after reset (R13, R250). -/
def Params.progBase : Word := BitVec.ofNat 16 Config.progBase

end Sys2Proof.Machine
end

