-- ==== Sys2Proof/Machine/Memory.lean ====
section
/-!
DEFINITION. `MEM` (R18, R40 to R43): a list of the bytes that differ from what reset puts there, in one
canonical form.  Keys are byte addresses already reduced mod 4096 (R41); `Ops.lean` does the reducing.
-/

namespace Sys2Proof.Machine

/-- `MEM` as plain data: (address, byte) pairs. -/
abbrev Memory := List Host.Cell

/-- What an address that is not listed reads as: the contents reset gives it (R24, R250), which are the
font in bytes 0 to 79 and 0 elsewhere.  Log 5. -/
def Memory.unlisted (a : Nat) : Byte := if h : a < 80 then Params.font ⟨a, h⟩ else 0

/-- `MEM[a]`. -/
def Memory.read : Memory → Nat → Byte
  | [], a => Memory.unlisted a
  | (b, u) :: rest, a => if a = b then u else Memory.read rest a

/-- The memory without an entry for `a`. -/
def Memory.without (m : Memory) (a : Nat) : Memory := m.filter (fun c => c.1 ≠ a)

/-- The memory with the entry `(a, u)` put before the first entry of a higher address. -/
def Memory.place : Memory → Nat → Byte → Memory
  | [], a, u => [(a, u)]
  | (b, w) :: rest, a, u =>
    if a < b then (a, u) :: (b, w) :: rest else (b, w) :: Memory.place rest a u

/-- `MEM[a] <- u`.  Writing the byte an unlisted address reads as leaves no entry. -/
def Memory.write (m : Memory) (a : Nat) (u : Byte) : Memory :=
  if u = Memory.unlisted a then m.without a else (m.without a).place a u

/-- The canonical form: addresses strictly rising and inside the 4096 bytes, and no entry equal to
what an unlisted address reads as. -/
abbrev Memory.wf (m : Memory) : Prop :=
  m.Pairwise (fun c d => c.1 < d.1) ∧ ∀ c ∈ m, c.1 < 4096 ∧ c.2 ≠ Memory.unlisted c.1

end Sys2Proof.Machine
end

