-- ==== Sys2Proof/Machine/State.lean ====
section
/-!
DEFINITION. The Machine State: exactly the pieces R10 lists, as plain data, and the reset state (R24,
R250).  The bounds of R25 that are plain facts about one field are in the field's type; the two that
relate fields to `Config`, the form of `mem` and the width of `rng`, are `State.Inv` (Safety.lean).
-/

namespace Sys2Proof.Machine

/-- `FB`: 32 rows of 64 cells, `true` for lit (R19).  Row 0 is the top and column 0 the left. -/
abbrev Framebuffer := Vector (Vector Bool 64) 32

/-- The Machine State (R10). -/
structure State where
  /-- `V[0..15]`, the general registers; `V[15]` is `VF` (R11, R12). -/
  v : Vector Byte 16
  /-- `I`, the address register (R14). -/
  i : Word
  /-- `pc` (R13). -/
  pc : Word
  /-- `DT`, the delay timer (R15). -/
  dt : Byte
  /-- `ST`, the sound timer (R16). -/
  st : Byte
  /-- `STACK[0..15]` (R17). -/
  stack : Vector Word 16
  /-- `SP`, 0 to 16: the number of entries in use (R17, R25). -/
  sp : Fin 17
  /-- `MEM` (R18). -/
  mem : Memory
  /-- `FB`, the framebuffer (R19). -/
  fb : Framebuffer
  /-- `KEY[0..15]`, the key latch, `true` for pressed (R20). -/
  key : Vector Bool 16
  /-- `RNG`, the generator state: a number below `2 ^ RNG_W` (R21; log 4). -/
  rng : Nat
  deriving DecidableEq, Repr

/-- The three faults of R210.  Each ends the step with no state changed (R214), so each is SAFE. -/
inductive Fault where
  /-- Code 1: raised by 00EE exactly when `SP = 0` (R211).  Safe: the spec's own fault. -/
  | stackUnderflow
  /-- Code 2: raised by 2nnn exactly when `SP = 16` (R212).  Safe: the spec's own fault. -/
  | stackOverflow
  /-- Code 3: raised by the step when the fetched word matches no pattern (R213).  Safe: the spec's
  own fault. -/
  | unknownOpCode
  deriving DecidableEq, Repr

/-- Refusals of the model. -/
inductive Refusal where
  /-- An instruction without a meaning.  No arm of `exec` raises it: every row of the opcode table is
  modelled.  Safe. -/
  | notModelled (mnemonic : String)
  deriving DecidableEq, Repr

/-- What one instruction, or one step, answers. -/
abbrev Result := Host.Outcome State Fault Refusal

/-- A dark framebuffer: every cell 0. -/
def darkScreen : Framebuffer := Vector.replicate 32 (Vector.replicate 64 false)

/-- An empty key latch. -/
def noKeys : Vector Bool 16 := Vector.replicate 16 false

/-- The state after the `reset` event (R24, R250), which is also the state at creation (R251). -/
def State.reset : State where
  v := Vector.replicate 16 0
  i := 0
  pc := Params.progBase
  dt := 0
  st := 0
  stack := Vector.replicate 16 0
  sp := 0
  mem := []
  fb := darkScreen
  key := noKeys
  rng := Params.rngSeed

end Sys2Proof.Machine
end

