-- ==== Sys2Proof/Machine/Operands.lean ====
section
/-!
DEFINITION. The operand forms: registers, the key and glyph a register names, addresses, and the
source of a shift.  R63: there are no addressing-mode fields, and the one memory operand is "at `I`".
-/

namespace Sys2Proof.Machine

/-- `V[x]` (R11). -/
def State.reg (s : State) (x : Reg) : Byte := s.v[x.val]

/-- `V[x] <- b` (R11).  No register is hard-wired. -/
def State.setReg (s : State) (x : Reg) (b : Byte) : State := { s with v := s.v.set x.val b }

/-- The index into `MEM` that a 16-bit address names: it wraps mod 4096 (R41). -/
def memIndex (a : Word) : Nat := a.toNat % 4096

/-- The address `I + k` of the `k`-th byte of a memory operand (R41, R140). -/
def State.dataAddr (s : State) (k : Nat) : Word := s.i + BitVec.ofNat 16 k

/-- The key a register value names: its low four bits (R190). -/
def keyOf (b : Byte) : Key := Fin.ofNat 16 (b.toNat % 16)

/-- `FONT_BASE + 5 * (b mod 16)`: the address of the glyph a register value names (R143). -/
def glyphAddr (b : Byte) : Word :=
  BitVec.ofNat 16 (Config.fontBase + Config.glyphBytes * (b.toNat % 16))

/-- The register a shift takes its bits from, `x` or `y` (R129, R131). -/
def shiftReg (src : ShiftSrc) (x y : Reg) : Reg :=
  match src with
  | .vx => x
  | .vy => y

/-- The value 8xy6 and 8xyE shift, latched before any write (R129, R131). -/
def State.shiftOperand (s : State) (x y : Reg) : Byte := s.reg (shiftReg Params.shiftSrc x y)

/-- The column of the `k`-th pixel of a sprite row that starts at `vx` (R172): each pixel wraps on its
own. -/
def pixelCol (vx : Byte) (k : Nat) : Fin 64 := Fin.ofNat 64 (vx.toNat + k)

/-- The framebuffer row of the `r`-th row of a sprite that starts at `vy` (R172). -/
def pixelRow (vy : Byte) (r : Nat) : Fin 32 := Fin.ofNat 32 (vy.toNat + r)

/-- The decimal digits of a byte: hundreds, tens, ones (R144). -/
def bcdHundreds (b : Byte) : Byte := BitVec.ofNat 8 (b.toNat / 100)

/-- The tens digit (R144). -/
def bcdTens (b : Byte) : Byte := BitVec.ofNat 8 (b.toNat / 10 % 10)

/-- The ones digit (R144). -/
def bcdOnes (b : Byte) : Byte := BitVec.ofNat 8 (b.toNat % 10)

end Sys2Proof.Machine
end

