-- ==== Sys2Proof/Machine/Flags.lean ====
section
/-!
DEFINITION. The flag computations (R12, R120).  A flag is a full byte, 0x00 or 0x01, in `VF`; there is no
flags register.  The two orders of the flag write against the result write are here, once each (C1;
log 8).
-/

namespace Sys2Proof.Machine

/-- A flag value: 0x00 or 0x01 (R12). -/
def flagByte (b : Bool) : Byte := if b then 1 else 0

/-- Carry of `a + b`: 1 exactly when the exact sum passes 255 (R120). -/
def carryOf (a b : Byte) : Bool := 255 < a.toNat + b.toNat

/-- Not-borrow of `a - b`: 1 exactly when `a >= b` (R120; D22, log 13). -/
def notBorrowOf (a b : Byte) : Bool := b.toNat ≤ a.toNat

/-- The bit a right shift by one moves out, `b[0]` (R129). -/
def lowBitOf (b : Byte) : Bool := b.getLsbD 0

/-- The bit a left shift by one moves out, `b[7]` (R131). -/
def highBitOf (b : Byte) : Bool := b.getLsbD 7

/-- Flag first, result second: 8xy4, 8xy5, 8xy7.  With `x = 15` the result remains (R12, R127). -/
def State.flagThenResult (s : State) (x : Reg) (flag : Bool) (result : Byte) : State :=
  (s.setReg regF (flagByte flag)).setReg x result

/-- Result first, flag last: 8xy6, 8xyE.  With `x = 15` the flag remains (R12, R129). -/
def State.resultThenFlag (s : State) (x : Reg) (result : Byte) (flag : Bool) : State :=
  (s.setReg x result).setReg regF (flagByte flag)

end Sys2Proof.Machine
end

