-- ==== Sys2Proof/Machine/Ops.lean ====
section
/-!
DEFINITION. The named operations the meanings are written over: memory (R42, R43), `pc` (R85), the call
stack (R17), the generator (R161, R162), the key latch (R87, R193), faults (R214), fetch (R81), and the
end of a completed step (R80).
-/

namespace Sys2Proof.Machine

/-! ### Memory -/

/-- `MemRead(a, 1)` (R42). -/
def State.memRead (s : State) (a : Word) : Byte := s.mem.read (memIndex a)

/-- `MemRead(a, 2)`: the byte at the lower address is the high half, and each address wraps on its own
(R42, R44; D11, log 14). -/
def State.memReadWord (s : State) (a : Word) : Word :=
  wordOfBytes (s.memRead a) (s.memRead (a + 1))

/-- `MemWrite(a, 1, b)` (R43).  Every byte of memory is writable, the font too (D8, log 15). -/
def State.memWrite (s : State) (a : Word) (b : Byte) : State :=
  { s with mem := s.mem.write (memIndex a) b }

/-- Store the first `n` of the registers `V[0], V[1], ..` at `I`, in ascending order (R145). -/
def State.storeRegs (s : State) : Nat → State
  | 0 => s
  | n + 1 => (s.storeRegs n).memWrite (s.dataAddr n) (s.reg (Fin.ofNat 16 n))

/-- Load the first `n` of the registers `V[0], V[1], ..` from `I`, in ascending order (R146). -/
def State.loadRegs (s : State) : Nat → State
  | 0 => s
  | n + 1 => (s.loadRegs n).setReg (Fin.ofNat 16 n) (s.memRead (s.dataAddr n))

/-! ### The program counter -/

/-- `pc <- a`. -/
def State.setPc (s : State) (a : Word) : State := { s with pc := a }

/-- `pc <- pc + 2`, the ordinary advance, mod 65536 (R13, R85). -/
def State.next (s : State) : State := s.setPc (s.pc + 2)

/-- `pc <- pc + 4` when the condition of a skip holds, else `pc + 2` (R85). -/
def State.skipIf (s : State) (c : Bool) : State := s.setPc (if c then s.pc + 4 else s.pc + 2)

/-! ### Faults -/

/-- `raise f`: the step ends with the fault and no state changes (R7, R214).  This is all that taking
an exception is on this machine: there is no vector, no saved register, no mode and no return from it
(R216). -/
def raise (f : Fault) : Result := .fault f

/-! ### The call stack -/

/-- Push a return address, if there is room: `STACK[SP] <- a; SP <- SP + 1` (R17). -/
def State.push (s : State) (a : Word) : Option State :=
  if h : s.sp.val < 16 then
    some { s with stack := s.stack.set s.sp.val a, sp := ⟨s.sp.val + 1, by omega⟩ }
  else none

/-- Pop a return address, if there is one: `SP <- SP - 1; STACK[SP]`, the entry left in place (R17). -/
def State.pop (s : State) : Option (Word × State) :=
  if h : 0 < s.sp.val then
    some (s.stack[s.sp.val - 1], { s with sp := ⟨s.sp.val - 1, by omega⟩ })
  else none

/-! ### The generator -/

/-- One advance of a linear congruential generator: `(A * r + C) mod 2^W` (R161; D6, log 2). -/
def lcgNext (w a c r : Nat) : Nat := (a * r + c) % 2 ^ w

/-- The eight bits `r[lo+7 : lo]` (R162). -/
def lcgByte (lo r : Nat) : Byte := BitVec.ofNat 8 (r / 2 ^ lo)

/-- `RNG <- rng_next(RNG)` (R161). -/
def State.advanceRng (s : State) : State :=
  { s with rng := lcgNext Params.rngW Params.rngA Params.rngC s.rng }

/-- The random byte of the state as it stands (R162). -/
def State.rngByte (s : State) : Byte := lcgByte Params.rngOutLo s.rng

/-! ### The key latch -/

/-- `KEY[k] = 1`. -/
def State.keyDown (s : State) (k : Key) : Bool := s.key[k.val]

/-- The least `k` with `KEY[k] = 1`, if any key is latched (R193; D15, log 10). -/
def State.leastKey (s : State) : Option Key := (List.finRange 16).find? s.keyDown

/-- `KEY[0..15] <- 0` (R87). -/
def State.clearKeys (s : State) : State := { s with key := noKeys }

/-! ### The step's frame around an instruction -/

/-- The word at `pc` (R81). -/
def State.fetch (s : State) : Word := s.memReadWord s.pc

/-- What the step does with an instruction's answer: a completed instruction is followed by the key
clear, and a fault ends the step as it is (R80, R83, R87; log 20). -/
def finishStep : Result → Result
  | .next s => .next s.clearKeys
  | .fault f => .fault f
  | .refused r => .refused r

end Sys2Proof.Machine
end

