-- ==== Sys2Proof/Machine/ControlFlow.lean ====
section
/-!
DEFINITION. Control transfer: spec/41_control_flow.md R100 to R108.
-/

namespace Sys2Proof.Machine

/-- 00EE `RET` (R101): the popped address plus 2 (D14, log 9). -/
def execRet (s : State) : Result :=
  match s.pop with
  | none => raise .stackUnderflow
  | some (a, t) => .next (t.setPc (a + 2))

/-- 1nnn `JP nnn` (R102). -/
def execJp (nnn : Imm12) (s : State) : Result := .next (s.setPc (zext16 nnn))

/-- 2nnn `CALL nnn` (R103): the address of this instruction is pushed (D14, log 9). -/
def execCall (nnn : Imm12) (s : State) : Result :=
  match s.push s.pc with
  | none => raise .stackOverflow
  | some t => .next (t.setPc (zext16 nnn))

/-- 3xkk `SE Vx, kk` (R104). -/
def execSeImm (x : Reg) (kk : Byte) (s : State) : Result := .next (s.skipIf (s.reg x == kk))

/-- 4xkk `SNE Vx, kk` (R105). -/
def execSneImm (x : Reg) (kk : Byte) (s : State) : Result := .next (s.skipIf (s.reg x != kk))

/-- 5xy0 `SE Vx, Vy` (R106). -/
def execSeReg (x y : Reg) (s : State) : Result := .next (s.skipIf (s.reg x == s.reg y))

/-- 9xy0 `SNE Vx, Vy` (R107). -/
def execSneReg (x y : Reg) (s : State) : Result := .next (s.skipIf (s.reg x != s.reg y))

/-- Bnnn `JP V0, nnn` (R108): the sum is not masked to 12 bits. -/
def execJpV0 (nnn : Imm12) (s : State) : Result :=
  .next (s.setPc (zext16 (s.reg 0) + zext16 nnn))

end Sys2Proof.Machine
end

