-- ==== Sys2Proof/Machine/Sprite.lean ====
section
/-!
DEFINITION. The framebuffer and the sprite engine (R19, R170, R172, R173).
-/

namespace Sys2Proof.Machine

/-- `FB[r][c]`. -/
def Framebuffer.pixel (fb : Framebuffer) (r : Fin 32) (c : Fin 64) : Bool := (fb[r.val])[c.val]

/-- `FB[r][c] <- FB[r][c] XOR 1`. -/
def Framebuffer.toggle (fb : Framebuffer) (r : Fin 32) (c : Fin 64) : Framebuffer :=
  fb.set r.val ((fb[r.val]).set c.val (!(fb[r.val])[c.val]))

/-- The framebuffer during a draw, and the local `hit` of R172: whether a lit cell has been unlit. -/
structure Canvas where
  fb : Framebuffer
  hit : Bool
  deriving DecidableEq, Repr

/-- Draw one pixel of a sprite: a 1 bit toggles the cell, and a lit cell it unlights is a collision; a
0 bit leaves it (R172, R173 (a)). -/
def Canvas.plot (d : Canvas) (bit : Bool) (r : Fin 32) (c : Fin 64) : Canvas :=
  if bit then ⟨d.fb.toggle r c, d.hit || d.fb.pixel r c⟩ else d

/-- Draw the first `k` pixels of a sprite row, most significant bit first (R172). -/
def Canvas.plotRow (d : Canvas) (b : Byte) (r : Fin 32) (vx : Byte) : Nat → Canvas
  | 0 => d
  | k + 1 => (d.plotRow b r vx k).plot (b.getLsbD (7 - k)) r (pixelCol vx k)

/-- Draw the first `n` rows of the sprite at `I`, from the coordinates `(vx, vy)` (R172). -/
def State.drawSprite (s : State) (vx vy : Byte) : Nat → Canvas
  | 0 => ⟨s.fb, false⟩
  | r + 1 =>
    (s.drawSprite vx vy r).plotRow (s.memRead (s.dataAddr r)) (pixelRow vy r) vx 8

end Sys2Proof.Machine
end

