-- ==== Sys2Proof/Machine/Display.lean ====
section
/-!
DEFINITION. The display instructions: spec/45_display.md R170 to R176.
-/

namespace Sys2Proof.Machine

/-- `FB <- fb`. -/
def State.setFb (s : State) (fb : Framebuffer) : State := { s with fb := fb }

/-- 00E0 `CLS` (R171). -/
def execCls (s : State) : Result := .next (s.setFb darkScreen).next

/-- Dxyn `DRW Vx, Vy, n` (R172): the coordinates are latched before `VF` is written, and the collision
flag is the last write (R173 (d); D16, log 11). -/
def execDrw (x y : Reg) (n : Fin 16) (s : State) : Result :=
  .next ((s.setFb (s.drawSprite (s.reg x) (s.reg y) n.val).fb).setReg regF
    (flagByte (s.drawSprite (s.reg x) (s.reg y) n.val).hit)).next

end Sys2Proof.Machine
end

