-- ==== Sys2Proof/Machine/IndexMemory.lean ====
section
/-!
DEFINITION. Address register and memory: spec/43_index_memory.md R140 to R146.  `I` is unchanged by the
three that move bytes (D12, log 14).
-/

namespace Sys2Proof.Machine

/-- `I <- a`. -/
def State.setI (s : State) (a : Word) : State := { s with i := a }

/-- Annn `LD I, nnn` (R141). -/
def execLdI (nnn : Imm12) (s : State) : Result := .next (s.setI (zext16 nnn)).next

/-- Fx1E `ADD I, Vx` (R142): mod 65536 and no flag (D10, log 14). -/
def execAddI (x : Reg) (s : State) : Result := .next (s.setI (s.i + zext16 (s.reg x))).next

/-- Fx29 `LD F, Vx` (R143). -/
def execLdFont (x : Reg) (s : State) : Result := .next (s.setI (glyphAddr (s.reg x))).next

/-- Fx33 `LD B, Vx` (R144): hundreds at `I`, tens at `I + 1`, ones at `I + 2` (D13, log 18). -/
def execLdBcd (x : Reg) (s : State) : Result :=
  .next (((s.memWrite (s.dataAddr 0) (bcdHundreds (s.reg x))).memWrite
    (s.dataAddr 1) (bcdTens (s.reg x))).memWrite (s.dataAddr 2) (bcdOnes (s.reg x))).next

/-- Fx55 `LD [I], Vx` (R145): `x + 1` bytes. -/
def execLdMemVx (x : Reg) (s : State) : Result := .next (s.storeRegs (x.val + 1)).next

/-- Fx65 `LD Vx, [I]` (R146): `x + 1` bytes. -/
def execLdVxMem (x : Reg) (s : State) : Result := .next (s.loadRegs (x.val + 1)).next

end Sys2Proof.Machine
end

