-- ==== Sys2Proof/Machine/KeypadTimers.lean ====
section
/-!
DEFINITION. Keypad and timer instructions: spec/46_keypad_timers.md R190 to R197.
-/

namespace Sys2Proof.Machine

/-- `DT <- b`. -/
def State.setDt (s : State) (b : Byte) : State := { s with dt := b }

/-- `ST <- b`. -/
def State.setSt (s : State) (b : Byte) : State := { s with st := b }

/-- Ex9E `SKP Vx` (R191). -/
def execSkp (x : Reg) (s : State) : Result := .next (s.skipIf (s.keyDown (keyOf (s.reg x))))

/-- ExA1 `SKNP Vx` (R192). -/
def execSknp (x : Reg) (s : State) : Result := .next (s.skipIf (!s.keyDown (keyOf (s.reg x))))

/-- Fx07 `LD Vx, DT` (R194). -/
def execLdVxDt (x : Reg) (s : State) : Result := .next (s.setReg x s.dt).next

/-- Fx0A `LD Vx, K` (R193): with no key latched the instruction completes with nothing written and
`pc` unchanged, so that the next step runs it again. -/
def execLdVxKey (x : Reg) (s : State) : Result :=
  match s.leastKey with
  | none => .next s
  | some k => .next (s.setReg x (BitVec.ofNat 8 k.val)).next

/-- Fx15 `LD DT, Vx` (R195). -/
def execLdDtVx (x : Reg) (s : State) : Result := .next (s.setDt (s.reg x)).next

/-- Fx18 `LD ST, Vx` (R196). -/
def execLdStVx (x : Reg) (s : State) : Result := .next (s.setSt (s.reg x)).next

end Sys2Proof.Machine
end

