-- ==== Sys2Proof/Machine/LoadAlu.lean ====
section
/-!
DEFINITION. Register load and arithmetic-logic: spec/42_load_alu.md R120 to R132.
-/

namespace Sys2Proof.Machine

/-- 6xkk `LD Vx, kk` (R121). -/
def execLdImm (x : Reg) (kk : Byte) (s : State) : Result := .next (s.setReg x kk).next

/-- 7xkk `ADD Vx, kk` (R122): no flag, also on overflow. -/
def execAddImm (x : Reg) (kk : Byte) (s : State) : Result := .next (s.setReg x (s.reg x + kk)).next

/-- 8xy0 `LD Vx, Vy` (R123). -/
def execLdReg (x y : Reg) (s : State) : Result := .next (s.setReg x (s.reg y)).next

/-- 8xy1 `OR Vx, Vy` (R124): no flag (D23, log 13). -/
def execOrReg (x y : Reg) (s : State) : Result := .next (s.setReg x (s.reg x ||| s.reg y)).next

/-- 8xy2 `AND Vx, Vy` (R125): no flag (D23, log 13). -/
def execAndReg (x y : Reg) (s : State) : Result := .next (s.setReg x (s.reg x &&& s.reg y)).next

/-- 8xy3 `XOR Vx, Vy` (R126): no flag (D23, log 13). -/
def execXorReg (x y : Reg) (s : State) : Result := .next (s.setReg x (s.reg x ^^^ s.reg y)).next

/-- 8xy4 `ADD Vx, Vy` (R127). -/
def execAddReg (x y : Reg) (s : State) : Result :=
  .next (s.flagThenResult x (carryOf (s.reg x) (s.reg y)) (s.reg x + s.reg y)).next

/-- 8xy5 `SUB Vx, Vy` (R128). -/
def execSubReg (x y : Reg) (s : State) : Result :=
  .next (s.flagThenResult x (notBorrowOf (s.reg x) (s.reg y)) (s.reg x - s.reg y)).next

/-- 8xy6 `SHR Vx, Vy` (R129). -/
def execShrReg (x y : Reg) (s : State) : Result :=
  .next (s.resultThenFlag x (s.shiftOperand x y >>> 1) (lowBitOf (s.shiftOperand x y))).next

/-- 8xy7 `SUBN Vx, Vy` (R130): the minuend is `V[y]`, the destination `V[x]`. -/
def execSubnReg (x y : Reg) (s : State) : Result :=
  .next (s.flagThenResult x (notBorrowOf (s.reg y) (s.reg x)) (s.reg y - s.reg x)).next

/-- 8xyE `SHL Vx, Vy` (R131). -/
def execShlReg (x y : Reg) (s : State) : Result :=
  .next (s.resultThenFlag x (s.shiftOperand x y <<< 1) (highBitOf (s.shiftOperand x y))).next

end Sys2Proof.Machine
end

