-- ==== Sys2Proof/Machine/Random.lean ====
section
/-!
DEFINITION. The random instruction: spec/44_random.md R160 to R164.
-/

namespace Sys2Proof.Machine

/-- Cxkk `RND Vx, kk` (R164): advance the generator, then mask the byte of its new state. -/
def execRnd (x : Reg) (kk : Byte) (s : State) : Result :=
  .next (s.advanceRng.setReg x (s.advanceRng.rngByte &&& kk)).next

end Sys2Proof.Machine
end

