-- ==== Sys2Proof/Machine/Step.lean ====
section
/-!
DEFINITION. The `step` event as a transition (R80), and placing a word where it is fetched.
-/

namespace Sys2Proof.Machine

/-- One `step` (R80): fetch, decode, execute, clear the key latch.  A fault ends it with the state as
it was; the host's outcome then carries the fault alone (R214; log 7). -/
def step (s : State) : Host.Outcome State Fault Refusal :=
  match decode s.fetch with
  | .error _ => raise .unknownOpCode
  | .ok i => finishStep (exec i s)

/-- `s` with the word that `nbits` bits of `w` stand for stored where `step` fetches, at `pc` and
`pc + 1`, high byte first (R44, R81).  Log 6, log 21. -/
def State.withFetchWord (s : State) (nbits w : Nat) : State :=
  (s.memWrite s.pc (highByte (tableWord nbits w))).memWrite (s.pc + 1)
    (lowByte (tableWord nbits w))

end Sys2Proof.Machine
end

