-- ==== Sys2Proof/Machine/Events.lean ====
section
/-!
DEFINITION. The driver boundary: the five events the driver may send (R224) and the outputs it may read
(R227 to R229).  Events are applied one at a time (R226); a run starts from the state a `reset` leaves
(R251, R255; U10, log 16).
-/

namespace Sys2Proof.Machine

/-! ### Events -/

/-- A timer on a tick: down by 1 while above 0, never below (R221). -/
def tickDown (b : Byte) : Byte := if b = 0 then 0 else b - 1

/-- The `timerTick` event (R221): the two timers, and nothing else (D24, log 16). -/
def timerTick (s : State) : State := { s with dt := tickDown s.dt, st := tickDown s.st }

/-- The `setKey(k)` event (R225). -/
def setKey (k : Key) (s : State) : State := { s with key := s.key.set k.val true }

/-- Copy bytes to `a, a + 1, ..`, in order. -/
def copyBytes : List Byte → Nat → Memory → Memory
  | [], _, m => m
  | b :: rest, a, m => copyBytes rest (a + 1) (m.write a b)

/-- The `loadProgram(b)` event (R253): bytes to 0x200 on, or none, OutOfBounds, when
`0x200 + len >= 4096` (R254), and then nothing is written (D19, log 16). -/
def loadProgram (b : List Byte) (s : State) : Option State :=
  if Config.memSize ≤ Config.progBase + b.length then none
  else some { s with mem := copyBytes b Config.progBase s.mem }

/-- The `reset` event: the result does not depend on the state before (R250). -/
def resetEvent (_ : State) : State := State.reset

/-- The `step` event with its fault output: on a fault the state is the state before (R80, R214). -/
def stepEvent (s : State) : State × Option Fault :=
  match step s with
  | .next t => (t, none)
  | .fault f => (s, some f)
  | .refused _ => (s, none)

/-- What the driver may send (R224). -/
inductive Event where
  | reset
  | loadProgram (b : List Byte)
  | setKey (k : Key)
  | step
  | timerTick
  deriving DecidableEq, Repr

/-- What an event reports to the driver (R224). -/
inductive Report where
  /-- The event cannot fail and has no output. -/
  | silent
  /-- A `step`: the fault it ended with, if any (R210). -/
  | stepped (fault : Option Fault)
  /-- A load that succeeded (R253). -/
  | loaded
  /-- A load refused as out of bounds: not one of the three faults (R254, C6). -/
  | outOfBounds
  deriving DecidableEq, Repr

/-- Apply one event: the state after it, and its report (R224). -/
def applyEvent : Event → State → State × Report
  | .reset, s => (resetEvent s, .silent)
  | .loadProgram b, s =>
    match Sys2Proof.Machine.loadProgram b s with
    | some t => (t, .loaded)
    | none => (s, .outOfBounds)
  | .setKey k, s => (Sys2Proof.Machine.setKey k s, .silent)
  | .step, s => ((stepEvent s).1, .stepped (stepEvent s).2)
  | .timerTick, s => (Sys2Proof.Machine.timerTick s, .silent)

/-- A run: a finite list of events, applied in the order the driver sends them (R226).  DESIGN CHOICE: the
spec leaves what ends a run to the model (R233; D25, U20), and here it ends with the list alone; a fault
and a jump to itself do not end it, and the events after them still act.  Log 23. -/
def applyEvents : List Event → State → State
  | [], s => s
  | e :: rest, s => applyEvents rest (applyEvent e s).1

/-! ### Outputs -/

/-- The `framebuffer` output (R227). -/
def State.framebuffer (s : State) : Framebuffer := s.fb

/-- The `sound_active` output: 1 when `ST > 0` (R228). -/
def State.soundActive (s : State) : Bool := 0 < s.st.toNat

/-- The `status` read-out: (`pc`, `V[0..15]`, `I`, `DT`, `ST`, `SP`) (R28, R229; D27). -/
structure Status where
  pc : Word
  v : Vector Byte 16
  i : Word
  dt : Byte
  st : Byte
  sp : Fin 17
  deriving DecidableEq, Repr

/-- The `status` output (R28). -/
def State.status (s : State) : Status :=
  { pc := s.pc, v := s.v, i := s.i, dt := s.dt, st := s.st, sp := s.sp }

/-- The `fault` output of a step, a 2-bit code (R210; D17, log 7). -/
def faultCode : Option Fault → BitVec 2
  | none => 0
  | some .stackUnderflow => 1
  | some .stackOverflow => 2
  | some .unknownOpCode => 3

end Sys2Proof.Machine
end

