-- ==== Sys2Proof/Safety.lean ====
section
/-!
DEFINITION. The terms claims are stated in: the invariant of a state, and a sprite's picture said without
the loop that draws it, and which registers an instruction may write.
-/

namespace Sys2Proof.Machine

/-- The invariant of every reachable state that the types of State do not already carry: memory is in
its canonical form, and `RNG` fits its `RNG_W` bits (R21, R161, R25). -/
def State.Inv (s : State) : Prop := Memory.wf s.mem ∧ s.rng < 2 ^ Params.rngW

/-- Whether the cell in row `r` and column `c` lies under a 1 bit of the sprite of `n` rows at `I`, placed
at `(vx, vy)` (R172): some row `j` and pixel `k` of the sprite fall on it, each coordinate wrapped on
its own, and the bit there, counted from the most significant, is 1. -/
def State.underBit (s : State) (vx vy : Byte) (n : Nat) (r : Fin 32) (c : Fin 64) : Prop :=
  ∃ j k : Nat, j < n ∧ k < 8 ∧ (s.memRead (s.i + BitVec.ofNat 16 j)).getLsbD (7 - k) = true ∧
    r.val = (vy.toNat + j) % 32 ∧ c.val = (vx.toNat + k) % 64

/-- The registers an instruction may write, by R26: its destination `V[x]`, the registers `V[0..x]` of
Fx65, and `VF` for the six that write a flag. -/
def mayWriteReg : Instr → Reg → Bool
  | .ldImm x _, r | .addImm x _, r | .ldReg x _, r | .orReg x _, r | .andReg x _, r
  | .xorReg x _, r | .rnd x _, r | .ldVxDt x, r | .ldVxKey x, r => r == x
  | .addReg x _, r | .subReg x _, r | .shrReg x _, r | .subnReg x _, r | .shlReg x _, r =>
    r == x || r == 15
  | .drw _ _ _, r => r == 15
  | .ldVxMem x, r => r ≤ x
  | .cls, _ | .ret, _ | .jp _, _ | .call _, _ | .seImm _ _, _ | .sneImm _ _, _ | .seReg _ _, _
  | .sneReg _ _, _ | .ldI _, _ | .jpV0 _, _ | .skp _, _ | .sknp _, _ | .ldDtVx _, _ | .ldStVx _, _
  | .addI _, _ | .ldFont _, _ | .ldBcd _, _ | .ldMemVx _, _ => false

end Sys2Proof.Machine
end

