-- ==== Sys2Proof/Certificates/Slice0/Obligations.lean ====
section
/-!
DEFINITION. The statements for the provers.  Each docstring names the rules of spec/ it formalises, and,
where a clause rests on a decision the spec marks as its own (D<n>) or on a choice of the model, names
that decision or the log entry.
-/

open Sys2Proof Sys2Proof.Machine

/-! ### Encoding and decoding -/

/-- Words written out from R61 and R64 decode to the instructions they stand for; the last four match no
row (R67).  The codes of group 8 among them are D5 (log 19). -/
def Obligations.DecodesWordsOfTheTable : Prop :=
  decode 0b0000000011100000 = .ok .cls ∧ decode 0b0001001000110100 = .ok (.jp 0x234) ∧
  decode 0b1000101010110111 = .ok (.subnReg 10 11) ∧
  decode 0b1101000100101010 = .ok (.drw 1 2 10) ∧
  decode 0b1111100100011110 = .ok (.addI 9) ∧ decode 0b1110000110100001 = .ok (.sknp 1) ∧
  decode 0b1100111111110000 = .ok (.rnd 15 0xF0) ∧
  decode 0x0000 = .error .unknownOpCode ∧ decode 0x8008 = .error .unknownOpCode ∧
  decode 0x5121 = .error .unknownOpCode ∧ decode 0xF056 = .error .unknownOpCode

/-- Decoding the word of an instruction gives it back, every operand at every value: no bit of an
encoding is dropped (R61, R62, R64). -/
def Obligations.DecodeAfterEncodeIsIdentity : Prop :=
  ∀ i : Instr, decode (encode i) = .ok i ∧
    decodeTableWord 16 (encode i).toNat = some i

/-- A word that decodes is the encoding of what it decodes to: no two words are one instruction. -/
def Obligations.EncodeAfterDecodeIsIdentity : Prop :=
  ∀ (w : Word) (i : Instr), decode w = .ok i → encode i = w

/-- The case procedure of R66 and the mask and match table of R64 accept the same words, and every
other word is an unknown opcode (R67).  Both give group 8 the low nibbles of D5 (log 19). -/
def Obligations.DecoderAgreesWithOpcodeTable : Prop :=
  ∀ w : Word, ((∃ i, decode w = .ok i) ↔ ∃ r ∈ opcodeTable, w &&& r.mask = r.pattern) ∧
    ((∀ r ∈ opcodeTable, w &&& r.mask ≠ r.pattern) → decode w = .error .unknownOpCode)

/-- No word matches two rows of the table (R66); the low nibbles of its group 8 are D5 (log 19). -/
def Obligations.OpcodeRowsAreDisjoint : Prop :=
  opcodeTable.length = 34 ∧
  ∀ (w : Word) (a b : Fin opcodeTable.length),
    w &&& opcodeTable[a].mask = opcodeTable[a].pattern →
    w &&& opcodeTable[b].mask = opcodeTable[b].pattern → a = b

/-! ### The step -/

/-- The fetched word is the byte at `pc` and the byte at `pc + 1`, each address reduced mod 4096 on its
own, the byte at the lower address in the high half (R42, R44, R81; D11). -/
def Obligations.FetchIsBigEndianAndWraps : Prop :=
  ∀ s : State, s.fetch = (s.mem.read (s.pc.toNat % 4096) ++ s.mem.read ((s.pc.toNat + 1) % 4096) : Word)

/-- A step runs the decoded instruction, and then clears the key latch if it completed (R80). -/
def Obligations.StepRunsDecodedInstruction : Prop :=
  ∀ (s : State) (i : Instr), decode s.fetch = .ok i →
    step s = match exec i s with
      | .next t => .next { t with key := Vector.replicate 16 false }
      | .fault f => .fault f
      | .refused r => .refused r

/-- A word placed at `pc` is what the next step fetches, whatever `pc` is (R44, R51, R81). -/
def Obligations.PlacedWordIsFetched : Prop :=
  ∀ (s : State) (w : Word), (s.withFetchWord 16 w.toNat).fetch = w ∧
    (s.withFetchWord 16 w.toNat).pc = s.pc

/-- A fetched word of no row raises UnknownOpCode and the step changes nothing (R213, R214, R67);
its code is 3 (D17, log 7), and which words of group 8 are of no row is D5 (log 19). -/
def Obligations.UnknownWordFaultsAndChangesNothing : Prop :=
  ∀ s : State, (step s = .fault .unknownOpCode ↔ wordWellFormed s.fetch = false) ∧
    (wordWellFormed s.fetch = false → stepEvent s = (s, some .unknownOpCode)) ∧
    faultCode (some .unknownOpCode) = 3

/-- StackUnderflow is raised by 00EE exactly when `SP = 0`, StackOverflow by 2nnn exactly when
`SP = 16`; then the state after the step is the state before it (R211, R212); the codes are 1 and 2
(D17, log 7). -/
def Obligations.StackFaultsExactly : Prop :=
  ∀ s : State,
    (step s = .fault .stackUnderflow ↔ s.fetch = 0x00EE ∧ s.sp = 0) ∧
    (step s = .fault .stackOverflow ↔ s.fetch.extractLsb' 12 4 = 2 ∧ s.sp = 16) ∧
    (step s = .fault .stackUnderflow → stepEvent s = (s, some .stackUnderflow)) ∧
    (step s = .fault .stackOverflow → stepEvent s = (s, some .stackOverflow)) ∧
    step (State.reset.withFetchWord 16 0x00EE) = .fault .stackUnderflow ∧
    faultCode (some .stackUnderflow) = 1 ∧ faultCode (some .stackOverflow) = 2

/-- Every step ends in a next state or in one of the three faults; the model refuses nothing (R266). -/
def Obligations.EveryStepCompletesOrFaults : Prop :=
  ∀ s : State, (∃ t, step s = .next t) ∨ ∃ f, step s = .fault f

/-- A fault is a fixed point of the step event: the state is as it was, and stepping again gives the
same fault (R214, R216). -/
def Obligations.FaultIsFixedPointOfStep : Prop :=
  ∀ (s t : State) (f : Fault), stepEvent s = (t, some f) → t = s ∧ stepEvent t = (t, some f)

/-- The last action of a completed step empties the key latch; the instruction itself ran on the latch
as the driver left it and did not touch it (R80, R26, R87).  That `exec` leaves the clear to `step` is the
model's choice of place (log 20). -/
def Obligations.CompletedStepClearsKeyLatch : Prop :=
  ∀ s t : State, step s = .next t →
    (∀ k : Key, t.keyDown k = false) ∧
    ∃ i u, decode s.fetch = .ok i ∧ exec i s = .next u ∧ u.key = s.key ∧
      t = { u with key := t.key }

/-- A step moves no timer: `DT` and `ST` change only by the explicit writes of Fx15 and Fx18 (R86). -/
def Obligations.StepMovesTimersOnlyByWrites : Prop :=
  ∀ (s t : State) (i : Instr), decode s.fetch = .ok i → step s = .next t →
    ((∀ x, i ≠ .ldDtVx x) → t.dt = s.dt) ∧ ((∀ x, i ≠ .ldStVx x) → t.st = s.st) ∧
    (∀ x, i = .ldDtVx x → t.dt = s.reg x) ∧ (∀ x, i = .ldStVx x → t.st = s.reg x)

/-- The table of R26: an instruction that completes changes no piece of state it is not listed as a
writer of. -/
def Obligations.OnlyListedWritersChangeState : Prop :=
  ∀ (i : Instr) (s t : State), exec i s = .next t →
    (∀ r : Reg, mayWriteReg i r = false → t.reg r = s.reg r) ∧
    ((∀ nnn, i ≠ .ldI nnn) → (∀ x, i ≠ .addI x) → (∀ x, i ≠ .ldFont x) → t.i = s.i) ∧
    ((∀ nnn, i ≠ .call nnn) → t.stack = s.stack) ∧
    ((∀ nnn, i ≠ .call nnn) → i ≠ .ret → t.sp = s.sp) ∧
    ((∀ x, i ≠ .ldDtVx x) → t.dt = s.dt) ∧ ((∀ x, i ≠ .ldStVx x) → t.st = s.st) ∧
    ((∀ x, i ≠ .ldBcd x) → (∀ x, i ≠ .ldMemVx x) → t.mem = s.mem) ∧
    (i ≠ .cls → (∀ x y n, i ≠ .drw x y n) → t.fb = s.fb) ∧
    ((∀ x kk, i ≠ .rnd x kk) → t.rng = s.rng) ∧
    t.key = s.key

/-- The generator advances exactly once for each executed Cxkk and on no other event but reset, not on a
faulting step, a tick, a key or a load (R161; the recurrence is D6). -/
def Obligations.GeneratorAdvancesOncePerRandom : Prop :=
  ∀ (e : Event) (s : State), e ≠ .reset →
    (applyEvent e s).1.rng =
      if e = .step ∧ s.fetch.extractLsb' 12 4 = 0xC
      then (Params.rngA * s.rng + Params.rngC) % 2 ^ Params.rngW else s.rng

/-! ### Invariants and reset -/

/-- Every step keeps the invariant: memory in its canonical form (the model's, log 5), `RNG` inside its
`RNG_W` bits (R21, R161; held as a number, log 4). -/
def Obligations.StepKeepsInvariant : Prop :=
  ∀ s t : State, s.Inv → step s = .next t → t.Inv

/-- Every event of the driver (R224) keeps the invariant: memory in its canonical form (the model's,
log 5), `RNG` inside its `RNG_W` bits (R21, R161; held as a number, log 4). -/
def Obligations.EventsKeepInvariant : Prop :=
  ∀ (e : Event) (s : State), s.Inv → (applyEvent e s).1.Inv

/-- The reset state (R250) has the invariant: nothing listed is the canonical form (the model's, log 5),
and `RNG_SEED` fits `RNG_W` bits (R161) because the model reduces it mod `2 ^ RNG_W` (log 2; log 4). -/
def Obligations.ResetHasInvariant : Prop := State.reset.Inv

/-- What reset leaves (R24, R250): `I` and the stack entries 0 are D18; `FONT` and `RNG_SEED` are the OPEN
parameters D7 and D6 (log 2, 3), and the statement holds for every value of them. -/
def Obligations.ResetLeavesTheListedValues : Prop :=
  (∀ s, (applyEvent .reset s).1 = State.reset) ∧
  (∀ r : Reg, State.reset.reg r = 0) ∧ State.reset.i = 0 ∧ State.reset.pc = 0x0200 ∧
  State.reset.dt = 0 ∧ State.reset.st = 0 ∧ State.reset.sp = 0 ∧
  (∀ k : Fin 16, State.reset.stack[k] = 0) ∧
  (∀ k : Fin 80, State.reset.mem.read k.val = Params.font k) ∧
  (∀ a : Nat, 80 ≤ a → State.reset.mem.read a = 0) ∧
  (∀ r c, State.reset.fb.pixel r c = false) ∧ (∀ k : Key, State.reset.keyDown k = false) ∧
  State.reset.rng = Params.rngSeed ∧ State.reset.soundActive = false

/-! ### Control transfer -/

/-- 1nnn (R102): `pc` is `nnn` and nothing else is written; a step of it also clears the key latch. -/
def Obligations.JumpSetsPc : Prop :=
  ∀ (nnn : Imm12) (s : State),
    decode (0x1#4 ++ nnn : Word) = .ok (.jp nnn) ∧
    exec (.jp nnn) s = .next { s with pc := nnn.setWidth 16 } ∧
    (s.fetch = (0x1#4 ++ nnn : Word) →
      step s = .next { s with pc := nnn.setWidth 16, key := Vector.replicate 16 false })

/-- Bnnn (R108): `pc` is `V[0] + nnn`, not masked to 12 bits (D9, log 14). -/
def Obligations.IndexedJumpAddsV0 : Prop :=
  ∀ (nnn : Imm12) (s : State),
    decode (0xB#4 ++ nnn : Word) = .ok (.jpV0 nnn) ∧
    ∃ t, exec (.jpV0 nnn) s = .next t ∧ t = { s with pc := t.pc } ∧
      t.pc.toNat = (s.reg 0).toNat + nnn.toNat

/-- 3xkk and 4xkk (R104, R105): `pc + 4` when the condition holds, else `pc + 2`; nothing else is
written. -/
def Obligations.SkipsOnImmediate : Prop :=
  ∀ (x : Reg) (kk : Byte) (s : State),
    decode (0x3#4 ++ BitVec.ofFin (w := 4) x ++ kk : Word) = .ok (.seImm x kk) ∧
    decode (0x4#4 ++ BitVec.ofFin (w := 4) x ++ kk : Word) = .ok (.sneImm x kk) ∧
    exec (.seImm x kk) s = .next { s with pc := if s.reg x = kk then s.pc + 4 else s.pc + 2 } ∧
    exec (.sneImm x kk) s = .next { s with pc := if s.reg x ≠ kk then s.pc + 4 else s.pc + 2 }

/-- 5xy0 and 9xy0 (R106, R107): `pc + 4` when the condition holds, else `pc + 2`, and nothing else is
written; the low nibble must be 0, and any other value is an unknown opcode. -/
def Obligations.SkipsOnRegisters : Prop :=
  ∀ (x y : Reg) (s : State),
    (∀ n : BitVec 4, n ≠ 0 →
      decode (0x5#4 ++ BitVec.ofFin (w := 4) x ++ BitVec.ofFin (w := 4) y ++ n : Word) =
        .error .unknownOpCode ∧
      decode (0x9#4 ++ BitVec.ofFin (w := 4) x ++ BitVec.ofFin (w := 4) y ++ n : Word) =
        .error .unknownOpCode) ∧
    decode (0x5#4 ++ BitVec.ofFin (w := 4) x ++ BitVec.ofFin (w := 4) y ++ 0x0#4 : Word) =
      .ok (.seReg x y) ∧
    decode (0x9#4 ++ BitVec.ofFin (w := 4) x ++ BitVec.ofFin (w := 4) y ++ 0x0#4 : Word) =
      .ok (.sneReg x y) ∧
    exec (.seReg x y) s =
      .next { s with pc := if s.reg x = s.reg y then s.pc + 4 else s.pc + 2 } ∧
    exec (.sneReg x y) s =
      .next { s with pc := if s.reg x ≠ s.reg y then s.pc + 4 else s.pc + 2 }

/-- 2nnn (R103): with room on the stack the address of the CALL itself is pushed (D14) and `pc` is
`nnn`; on a full stack it is the StackOverflow fault (R212). -/
def Obligations.CallPushesItsAddress : Prop :=
  ∀ (nnn : Imm12) (s : State),
    (s.sp = 16 → exec (.call nnn) s = .fault .stackOverflow) ∧
    ∀ j : Fin 16, s.sp = j.castSucc →
      exec (.call nnn) s =
        .next { s with stack := s.stack.set j.val s.pc, sp := j.succ, pc := nnn.setWidth 16 }

/-- 00EE (R101): with an entry on the stack `pc` is that entry plus 2 (D14), the entry stays, and `SP` goes
down; on an empty stack it is the StackUnderflow fault (R211). -/
def Obligations.ReturnPopsAndAddsTwo : Prop :=
  ∀ s : State,
    (s.sp = 0 → exec .ret s = .fault .stackUnderflow) ∧
    ∀ j : Fin 16, s.sp = j.succ →
      exec .ret s = .next { s with sp := j.castSucc, pc := s.stack[j] + 2 }

/-- A call and, after a subroutine that leaves the stack as it found it, a return: `pc` is the address
after the call and `SP` its value before (R101, R103; D14). -/
def Obligations.CallThenReturnComesBack : Prop :=
  ∀ (nnn : Imm12) (s t u : State), exec (.call nnn) s = .next t →
    u.sp = t.sp → u.stack = t.stack →
    exec .ret u = .next { u with sp := s.sp, pc := s.pc + 2 }

/-! ### Register load and arithmetic-logic -/

/-- 6xkk, 7xkk, 8xy0 (R121, R122, R123): the destination and `pc` are written and nothing else, no flag
among it. -/
def Obligations.LoadAddImmediateAndCopy : Prop :=
  ∀ (x y : Reg) (kk : Byte) (s : State),
    decode (0x6#4 ++ BitVec.ofFin (w := 4) x ++ kk : Word) = .ok (.ldImm x kk) ∧
    decode (0x7#4 ++ BitVec.ofFin (w := 4) x ++ kk : Word) = .ok (.addImm x kk) ∧
    decode (0x8#4 ++ BitVec.ofFin (w := 4) x ++ BitVec.ofFin (w := 4) y ++ 0x0#4 : Word) =
      .ok (.ldReg x y) ∧
    exec (.ldImm x kk) s = .next { s with v := s.v.set x.val kk, pc := s.pc + 2 } ∧
    exec (.addImm x kk) s =
      .next { s with
        v := s.v.set x.val (BitVec.ofNat 8 (((s.reg x).toNat + kk.toNat) % 256)), pc := s.pc + 2 } ∧
    exec (.ldReg x y) s = .next { s with v := s.v.set x.val (s.reg y), pc := s.pc + 2 }

/-- 8xy1, 8xy2, 8xy3 (R124, R125, R126): bit by bit, `VF` not written unless it is the destination
(D23, log 13). -/
def Obligations.LogicOperationsBitByBit : Prop :=
  ∀ (x y : Reg) (s : State),
    (∃ t, exec (.orReg x y) s = .next t ∧ t = { s with v := t.v, pc := s.pc + 2 } ∧
      (∀ b, (t.reg x).getLsbD b = ((s.reg x).getLsbD b || (s.reg y).getLsbD b)) ∧
      ∀ r, r ≠ x → t.reg r = s.reg r) ∧
    (∃ t, exec (.andReg x y) s = .next t ∧ t = { s with v := t.v, pc := s.pc + 2 } ∧
      (∀ b, (t.reg x).getLsbD b = ((s.reg x).getLsbD b && (s.reg y).getLsbD b)) ∧
      ∀ r, r ≠ x → t.reg r = s.reg r) ∧
    (∃ t, exec (.xorReg x y) s = .next t ∧ t = { s with v := t.v, pc := s.pc + 2 } ∧
      (∀ b, (t.reg x).getLsbD b = ((s.reg x).getLsbD b ^^ (s.reg y).getLsbD b)) ∧
      ∀ r, r ≠ x → t.reg r = s.reg r)

/-- 8xy4 (R127): the sum mod 256 in `V[x]`, the carry in `VF`; with `x = 15` the sum remains (C1), and
both come from the operands as they were (D3, log 8). -/
def Obligations.AddSetsCarry : Prop :=
  ∀ (x y : Reg) (s : State), ∃ t, exec (.addReg x y) s = .next t ∧
    t = { s with v := t.v, pc := s.pc + 2 } ∧
    (t.reg x).toNat = ((s.reg x).toNat + (s.reg y).toNat) % 256 ∧
    (x ≠ 15 → t.reg 15 = if (s.reg x).toNat + (s.reg y).toNat > 255 then 1 else 0) ∧
    ∀ r, r ≠ x → r ≠ 15 → t.reg r = s.reg r

/-- 8xy5 and 8xy7 (R128, R130): the difference mod 256 in `V[x]`, the not-borrow in `VF`, 1 on equal
operands (D22, log 13); with `x = 15` the difference remains (C1), and both come from the operands as
they were (D3, log 8). -/
def Obligations.SubtractsSetNotBorrow : Prop :=
  ∀ (x y : Reg) (s : State),
    (∃ t, exec (.subReg x y) s = .next t ∧ t = { s with v := t.v, pc := s.pc + 2 } ∧
      ((t.reg x).toNat : Int) = (((s.reg x).toNat : Int) - (s.reg y).toNat) % 256 ∧
      (x ≠ 15 → t.reg 15 = if (s.reg x).toNat ≥ (s.reg y).toNat then 1 else 0) ∧
      ∀ r, r ≠ x → r ≠ 15 → t.reg r = s.reg r) ∧
    (∃ t, exec (.subnReg x y) s = .next t ∧ t = { s with v := t.v, pc := s.pc + 2 } ∧
      ((t.reg x).toNat : Int) = (((s.reg y).toNat : Int) - (s.reg x).toNat) % 256 ∧
      (x ≠ 15 → t.reg 15 = if (s.reg y).toNat ≥ (s.reg x).toNat then 1 else 0) ∧
      ∀ r, r ≠ x → r ≠ 15 → t.reg r = s.reg r)

/-- 8xy6 and 8xyE (R129, R131), for either setting of the OPEN parameter `SHIFT_SRC` (D4, log 1): the
source shifted by one in `V[x]`, the bit shifted out in `VF`; with `x = 15` the flag remains (C1,
log 8). -/
def Obligations.ShiftsSetBitShiftedOut : Prop :=
  ∀ (x y : Reg) (s : State) (src : Byte),
    src = s.reg (if Params.shiftSrc = .vx then x else y) →
    (∃ t, exec (.shrReg x y) s = .next t ∧ t = { s with v := t.v, pc := s.pc + 2 } ∧
      (x ≠ 15 → (t.reg x).toNat = src.toNat / 2) ∧ (t.reg 15).toNat = src.toNat % 2 ∧
      ∀ r, r ≠ x → r ≠ 15 → t.reg r = s.reg r) ∧
    (∃ t, exec (.shlReg x y) s = .next t ∧ t = { s with v := t.v, pc := s.pc + 2 } ∧
      (x ≠ 15 → (t.reg x).toNat = 2 * src.toNat % 256) ∧ (t.reg 15).toNat = src.toNat / 128 ∧
      ∀ r, r ≠ x → r ≠ 15 → t.reg r = s.reg r)

/-! ### Address register and memory -/

/-- Annn and Fx29 (R141, R143): `I` is `nnn`, or the address of the glyph the low nibble of `V[x]`
names. -/
def Obligations.LoadAddressAndGlyph : Prop :=
  ∀ (nnn : Imm12) (x : Reg) (s : State),
    decode (0xA#4 ++ nnn : Word) = .ok (.ldI nnn) ∧
    decode (0xF#4 ++ BitVec.ofFin (w := 4) x ++ 0x29#8 : Word) = .ok (.ldFont x) ∧
    exec (.ldI nnn) s = .next { s with i := nnn.setWidth 16, pc := s.pc + 2 } ∧
    ∃ t, exec (.ldFont x) s = .next t ∧ t = { s with i := t.i, pc := s.pc + 2 } ∧
      t.i.toNat = 5 * ((s.reg x).toNat % 16)

/-- Fx1E (R142): `I + V[x]` mod 65536 and no flag (D10, log 14). -/
def Obligations.AddToAddressWraps : Prop :=
  ∀ (x : Reg) (s : State), ∃ t, exec (.addI x) s = .next t ∧
    t = { s with i := t.i, pc := s.pc + 2 } ∧
    t.i.toNat = (s.i.toNat + (s.reg x).toNat) % 65536

/-- Fx33 (R144): the three decimal digits of `V[x]` at `I`, `I + 1`, `I + 2`, hundreds first (D13,
log 18), each address reduced mod 4096 (D11), `I` unchanged (D12, log 14); every other byte of memory
reads as before. -/
def Obligations.BcdStoresThreeDigits : Prop :=
  ∀ (x : Reg) (s : State), ∃ t, exec (.ldBcd x) s = .next t ∧
    t = { s with mem := t.mem, pc := s.pc + 2 } ∧
    (∀ k, memIndex (s.dataAddr k) = (s.i.toNat + k) % 4096) ∧
    (t.mem.read (memIndex (s.dataAddr 0))).toNat = (s.reg x).toNat / 100 ∧
    (t.mem.read (memIndex (s.dataAddr 1))).toNat = (s.reg x).toNat / 10 % 10 ∧
    (t.mem.read (memIndex (s.dataAddr 2))).toNat = (s.reg x).toNat % 10 ∧
    ∀ a : Nat, (∀ k, k < 3 → a ≠ memIndex (s.dataAddr k)) → t.mem.read a = s.mem.read a

/-- Fx55 (R145): the registers `V[0..x]` at `I .. I + x`, each address reduced mod 4096 (D11), `I` and the
registers unchanged (D12, log 14); every other byte of memory reads as before. -/
def Obligations.BlockStoreWritesRegisters : Prop :=
  ∀ (x : Reg) (s : State), ∃ t, exec (.ldMemVx x) s = .next t ∧
    t = { s with mem := t.mem, pc := s.pc + 2 } ∧
    (∀ k : Reg, k ≤ x → t.mem.read (memIndex (s.dataAddr k.val)) = s.reg k) ∧
    ∀ a : Nat, (∀ k : Reg, k ≤ x → a ≠ memIndex (s.dataAddr k.val)) →
      t.mem.read a = s.mem.read a

/-- Fx65 (R146): the bytes at `I .. I + x` in `V[0..x]`, each address reduced mod 4096 (D11); the
registers above `x` and `I` unchanged (D12, log 14), and memory too. -/
def Obligations.BlockLoadReadsRegisters : Prop :=
  ∀ (x : Reg) (s : State), ∃ t, exec (.ldVxMem x) s = .next t ∧
    t = { s with v := t.v, pc := s.pc + 2 } ∧
    (∀ k : Reg, k ≤ x → t.reg k = s.mem.read ((s.i.toNat + k.val) % 4096)) ∧
    ∀ k : Reg, x < k → t.reg k = s.reg k

/-- Storing `V[0..x]` and loading them back, whatever the registers hold in between, gives the original
values (R146; D12). -/
def Obligations.StoreThenLoadRestores : Prop :=
  ∀ (x : Reg) (s t u w : State), exec (.ldMemVx x) s = .next t → u.mem = t.mem → u.i = s.i →
    exec (.ldVxMem x) u = .next w → ∀ k : Reg, k ≤ x → w.reg k = s.reg k

/-- Reading after writing one byte, by 16-bit addresses: addresses that agree mod 4096 are one byte, and
every other byte is as it was (R42, R43; D11, log 14). -/
def Obligations.MemoryReadAfterWrite : Prop :=
  ∀ (s : State) (a b : Word) (u : Byte),
    (a.toNat % 4096 = b.toNat % 4096 → (s.memWrite a u).memRead b = u) ∧
    (a.toNat % 4096 ≠ b.toNat % 4096 → (s.memWrite a u).memRead b = s.memRead b)

/-- A store over the next instruction is what the next step fetches (R51, R145). -/
def Obligations.StoredWordIsFetchedNext : Prop :=
  ∀ (x j k : Reg) (s t : State), exec (.ldMemVx x) s = .next t →
    j.val + 1 = k.val → k ≤ x → memIndex (s.dataAddr j.val) = memIndex t.pc →
    t.fetch = (s.reg j ++ s.reg k : Word)

/-! ### Random -/

/-- Cxkk (R164): `RNG` advances, and `V[x]` is the byte of its new state masked by `kk`; the recurrence and
the slice are D6, and the parameters are OPEN (log 2): the statement holds for every value of them. -/
def Obligations.RandomMasksNewByte : Prop :=
  ∀ (x : Reg) (kk : Byte) (s : State), ∃ t, exec (.rnd x kk) s = .next t ∧
    t = { s with v := t.v, rng := t.rng, pc := s.pc + 2 } ∧
    t.rng = (Params.rngA * s.rng + Params.rngC) % 2 ^ Params.rngW ∧
    (∀ b, (t.reg x).getLsbD b =
      (decide (b < 8) && t.rng.testBit (Params.rngOutLo + b) && kk.getLsbD b)) ∧
    ∀ r, r ≠ x → t.reg r = s.reg r

/-! ### Display -/

/-- 00E0 (R171): every cell to 0, `VF` and all else as they were. -/
def Obligations.ClearDarkensEveryCell : Prop :=
  ∀ s : State, decode 0x00E0 = .ok .cls ∧
    ∃ t, exec .cls s = .next t ∧ t = { s with fb := t.fb, pc := s.pc + 2 } ∧
      ∀ r c, t.fb.pixel r c = false

/-- Dxyn (R172, R173): a cell is inverted exactly when it lies under a 1 bit of the sprite, `VF` is 1
exactly when such a cell was lit, for every `n` (0 too) and every `x`, `y` (15 too: the coordinates are
the register values before the draw, D16, log 11); `I` is unchanged and each
sprite byte's address is reduced mod 4096 (D12, D11, log 14). -/
def Obligations.DrawInvertsCellsUnderTheSprite : Prop :=
  ∀ (x y : Reg) (n : Fin 16) (s : State), ∃ t, exec (.drw x y n) s = .next t ∧
    t = { s with v := t.v, fb := t.fb, pc := s.pc + 2 } ∧
    (∀ r c, s.underBit (s.reg x) (s.reg y) n.val r c → t.fb.pixel r c = !s.fb.pixel r c) ∧
    (∀ r c, ¬ s.underBit (s.reg x) (s.reg y) n.val r c → t.fb.pixel r c = s.fb.pixel r c) ∧
    ((∃ r c, s.underBit (s.reg x) (s.reg y) n.val r c ∧ s.fb.pixel r c = true) → t.reg 15 = 1) ∧
    ((¬ ∃ r c, s.underBit (s.reg x) (s.reg y) n.val r c ∧ s.fb.pixel r c = true) →
      t.reg 15 = 0) ∧
    ∀ r, r ≠ 15 → t.reg r = s.reg r

/-- Drawing the identical sprite twice at the same location returns the framebuffer to what it was, and
the second flag is 1 exactly when some cell under a 1 bit was unlit before the first draw (R174).  Its
forms with `n = 0` and with `x` or `y` 15 rest on D16 (log 11), and the unchanged `I` and the wrap of the
sprite's addresses on D12 and D11 (log 14). -/
def Obligations.DoubleDrawRestoresFramebuffer : Prop :=
  ∀ (x y : Reg) (n : Fin 16) (s t u w : State), exec (.drw x y n) s = .next t →
    u.fb = t.fb → u.mem = s.mem → u.i = s.i → u.reg x = s.reg x → u.reg y = s.reg y →
    exec (.drw x y n) u = .next w →
    w.fb = s.fb ∧
    (w.reg 15 = 1 ↔
      ∃ r c, s.underBit (s.reg x) (s.reg y) n.val r c ∧ s.fb.pixel r c = false)

/-! ### Keypad and timers -/

/-- Ex9E and ExA1 (R191, R192): skip by the key the low four bits of `V[x]` name, and the step consumes
the latch whatever the outcome. -/
def Obligations.KeySkipsTestOneKey : Prop :=
  ∀ (x : Reg) (s : State) (k : Key), k.val = (s.reg x).toNat % 16 →
    decode (0xE#4 ++ BitVec.ofFin (w := 4) x ++ 0x9E#8 : Word) = .ok (.skp x) ∧
    decode (0xE#4 ++ BitVec.ofFin (w := 4) x ++ 0xA1#8 : Word) = .ok (.sknp x) ∧
    exec (.skp x) s = .next { s with pc := if s.key[k] = true then s.pc + 4 else s.pc + 2 } ∧
    exec (.sknp x) s = .next { s with pc := if s.key[k] = false then s.pc + 4 else s.pc + 2 } ∧
    (decode s.fetch = .ok (.skp x) ∨ decode s.fetch = .ok (.sknp x) →
      ∃ t, step s = .next t ∧ ∀ j : Key, t.keyDown j = false)

/-- Fx0A (R193): with no key latched nothing is written and `pc` stays; else `V[x]` is the least latched
key (D15, log 10). -/
def Obligations.KeyWaitHoldsOrTakesLeastKey : Prop :=
  ∀ (x : Reg) (s : State),
    ((∀ k : Key, s.keyDown k = false) → exec (.ldVxKey x) s = .next s) ∧
    ∀ k : Key, s.keyDown k = true → (∀ j : Key, j < k → s.keyDown j = false) →
      exec (.ldVxKey x) s =
        .next { s with v := s.v.set x.val (BitVec.ofNat 8 k.val), pc := s.pc + 2 }

/-- Fx07 and Fx15 (R194, R195): read and set the delay timer; a new write replaces a running count. -/
def Obligations.DelayTimerReadAndSet : Prop :=
  ∀ (x : Reg) (s : State),
    decode (0xF#4 ++ BitVec.ofFin (w := 4) x ++ 0x07#8 : Word) = .ok (.ldVxDt x) ∧
    decode (0xF#4 ++ BitVec.ofFin (w := 4) x ++ 0x15#8 : Word) = .ok (.ldDtVx x) ∧
    exec (.ldVxDt x) s = .next { s with v := s.v.set x.val s.dt, pc := s.pc + 2 } ∧
    exec (.ldDtVx x) s = .next { s with dt := s.reg x, pc := s.pc + 2 }

/-- Fx18 (R196): sets the sound timer, and `sound_active` is 1 until as many ticks have come. -/
def Obligations.SoundTimerSetsBuzzer : Prop :=
  ∀ (x : Reg) (s : State),
    decode (0xF#4 ++ BitVec.ofFin (w := 4) x ++ 0x18#8 : Word) = .ok (.ldStVx x) ∧
    exec (.ldStVx x) s = .next { s with st := s.reg x, pc := s.pc + 2 } ∧
    ∀ (t : State) (k : Nat), exec (.ldStVx x) s = .next t →
      (applyEvents (List.replicate k .timerTick) t).soundActive = decide (k < (s.reg x).toNat)

/-- `ST` is seen by no instruction (R16, R27): two states that differ in it alone step to states that
differ in it alone, or fault alike. -/
def Obligations.SoundTimerIsSeenByNoInstruction : Prop :=
  ∀ (s : State) (b : Byte),
    (∀ f, step s = .fault f ↔ step { s with st := b } = .fault f) ∧
    ∀ t, step s = .next t → ∃ b', step { s with st := b } = .next { t with st := b' }

/-- The stack's contents are seen only by 00EE, and it sees the top entry alone (R17, R27, R261): two
states that differ in other entries step to states that differ in the stack's contents alone, or fault
alike. -/
def Obligations.StackIsSeenOnlyByReturn : Prop :=
  ∀ (s : State) (k : Vector Word 16),
    (s.fetch = 0x00EE → ∀ j : Fin 16, s.sp = j.succ → k[j] = s.stack[j]) →
    (∀ f, step s = .fault f ↔ step { s with stack := k } = .fault f) ∧
    ∀ t, step s = .next t → ∃ k', step { s with stack := k } = .next { t with stack := k' }

/-! ### Driver events -/

/-- `timerTick` (R221): each timer above 0 down by 1, a timer at 0 stays, and nothing else changes
(D24, log 16). -/
def Obligations.TimerTickCountsDownToZero : Prop :=
  ∀ s : State, ∃ t, applyEvent .timerTick s = (t, .silent) ∧ t = { s with dt := t.dt, st := t.st } ∧
    (0 < s.dt.toNat → t.dt.toNat + 1 = s.dt.toNat) ∧ (s.dt = 0 → t.dt = 0) ∧
    (0 < s.st.toNat → t.st.toNat + 1 = s.st.toNat) ∧ (s.st = 0 → t.st = 0)

/-- `setKey(k)` (R225; D20): latches one key and changes nothing else. -/
def Obligations.SetKeyLatchesOneKey : Prop :=
  ∀ (k : Key) (s : State), ∃ t, applyEvent (.setKey k) s = (t, .silent) ∧
    t = { s with key := t.key } ∧ t.keyDown k = true ∧
    ∀ j : Key, j ≠ k → t.keyDown j = s.keyDown j

/-- `loadProgram(b)` (R253, R254): refused exactly when `0x200 + len >= 4096`, and then nothing is written
(D19, log 16); else byte `k` is at `0x200 + k`, and every other byte, and all else, is as it was. -/
def Obligations.LoadProgramCopiesOrRefuses : Prop :=
  ∀ (l : List Byte) (s : State),
    (0x200 + l.length ≥ 4096 → applyEvent (.loadProgram l) s = (s, .outOfBounds)) ∧
    (0x200 + l.length < 4096 →
      ∃ t, applyEvent (.loadProgram l) s = (t, .loaded) ∧ t = { s with mem := t.mem } ∧
        (∀ k : Fin l.length, t.mem.read (0x200 + k.val) = l[k]) ∧
        ∀ a : Nat, (a < 0x200 ∨ 0x200 + l.length ≤ a) → t.mem.read a = s.mem.read a)
end

