-- ==== Sys2Proof/Laws/Decode.lean ====
section
/-!
SUPPORT. The fields of an encoded word are the operands it was built from (R61, R62), and a word is the
words of its fields.
-/

namespace Sys2Proof

/-! ### Fields of the three encoding forms -/

@[simp] theorem nibble_toFin (x : Fin 16) : (nibble x).toFin = x := rfl

@[simp] theorem nibble_of_toFin (b : BitVec 4) : nibble b.toFin = b := rfl

@[simp] theorem fieldN0_formNNN (op : BitVec 4) (nnn : Imm12) : fieldN0 (formNNN op nnn) = op := by
  unfold fieldN0 formNNN; ext j hj; simp; grind

@[simp] theorem fieldNNN_formNNN (op : BitVec 4) (nnn : Imm12) :
    fieldNNN (formNNN op nnn) = nnn := by
  unfold fieldNNN formNNN; ext j hj; simp; grind

@[simp] theorem fieldN0_formXKK (op : BitVec 4) (x : Reg) (kk : Byte) :
    fieldN0 (formXKK op x kk) = op := by
  unfold fieldN0 formXKK; ext j hj; simp; grind

theorem xbits_formXKK (op : BitVec 4) (x : Reg) (kk : Byte) :
    (formXKK op x kk).extractLsb' 8 4 = nibble x := by
  unfold formXKK; ext j hj; simp; grind

@[simp] theorem fieldX_formXKK (op : BitVec 4) (x : Reg) (kk : Byte) :
    fieldX (formXKK op x kk) = x := congrArg BitVec.toFin (xbits_formXKK op x kk)

@[simp] theorem fieldKK_formXKK (op : BitVec 4) (x : Reg) (kk : Byte) :
    fieldKK (formXKK op x kk) = kk := by
  unfold fieldKK formXKK; ext j hj; simp; grind

@[simp] theorem fieldN0_formXYN (op : BitVec 4) (x y : Reg) (n : BitVec 4) :
    fieldN0 (formXYN op x y n) = op := by
  unfold fieldN0 formXYN; ext j hj; simp; grind

theorem xbits_formXYN (op : BitVec 4) (x y : Reg) (n : BitVec 4) :
    (formXYN op x y n).extractLsb' 8 4 = nibble x := by
  unfold formXYN; ext j hj; simp; grind

@[simp] theorem fieldX_formXYN (op : BitVec 4) (x y : Reg) (n : BitVec 4) :
    fieldX (formXYN op x y n) = x := congrArg BitVec.toFin (xbits_formXYN op x y n)

theorem ybits_formXYN (op : BitVec 4) (x y : Reg) (n : BitVec 4) :
    (formXYN op x y n).extractLsb' 4 4 = nibble y := by
  unfold formXYN; ext j hj; simp; grind

@[simp] theorem fieldY_formXYN (op : BitVec 4) (x y : Reg) (n : BitVec 4) :
    fieldY (formXYN op x y n) = y := congrArg BitVec.toFin (ybits_formXYN op x y n)

@[simp] theorem fieldN_formXYN (op : BitVec 4) (x y : Reg) (n : BitVec 4) :
    fieldN (formXYN op x y n) = n := by
  unfold fieldN formXYN; ext j hj; simp; grind

/-! ### A word from its fields -/

/-- Format NNN loses nothing of a word. -/
theorem formNNN_fields (w : Word) : formNNN (fieldN0 w) (fieldNNN w) = w := by
  unfold formNNN fieldN0 fieldNNN; ext j hj; simp; grind

/-- Format XKK loses nothing of a word. -/
theorem formXKK_fields (w : Word) : formXKK (fieldN0 w) (fieldX w) (fieldKK w) = w := by
  change w.extractLsb' 12 4 ++ w.extractLsb' 8 4 ++ w.extractLsb' 0 8 = w
  ext j hj; simp; grind

/-- Format XYN loses nothing of a word. -/
theorem formXYN_fields (w : Word) : formXYN (fieldN0 w) (fieldX w) (fieldY w) (fieldN w) = w := by
  change w.extractLsb' 12 4 ++ w.extractLsb' 8 4 ++ w.extractLsb' 4 4 ++ w.extractLsb' 0 4 = w
  ext j hj; simp; grind

/-! ### Words as bytes (R44) -/

@[simp] theorem wordOfBytes_halves (w : Word) : wordOfBytes (highByte w) (lowByte w) = w := by
  unfold wordOfBytes highByte lowByte; ext j hj; simp; grind

@[simp] theorem highByte_wordOfBytes (hi lo : Byte) : highByte (wordOfBytes hi lo) = hi := by
  unfold wordOfBytes highByte; ext j hj; simp; grind

@[simp] theorem lowByte_wordOfBytes (hi lo : Byte) : lowByte (wordOfBytes hi lo) = lo := by
  unfold wordOfBytes lowByte; ext j hj; simp; grind

/-- The sixteen bits of a word stand for the word. -/
@[simp] theorem tableWord_toNat (w : Word) : tableWord 16 w.toNat = w := by
  unfold tableWord
  rw [Nat.mod_eq_of_lt w.isLt, BitVec.ofNat_toNat, BitVec.setWidth_eq]

/-- A word's bytes decode as the word. -/
theorem decodeBytes_bytesOfWord (w : Word) :
    decodeBytes (bytesOfWord w) = (decode w).map (fun i => (i, [])) := by
  simp only [bytesOfWord, decodeBytes, wordOfBytes_halves]
  cases decode w <;> rfl

end Sys2Proof
end

