-- ==== Sys2Proof/Laws/Memory.lean ====
section
/-!
SUPPORT. The laws of `MEM`: what a read answers after a write, and that a write keeps the canonical form.
-/

namespace Sys2Proof.Machine

theorem Memory.read_without (m : Memory) (a b : Nat) :
    (m.without a).read b = if b = a then Memory.unlisted b else m.read b := by
  induction m with
  | nil => simp [Memory.without, Memory.read]
  | cons c rest ih =>
    simp only [Memory.without, List.filter_cons] at ih ⊢
    by_cases h : c.1 = a
    · simp only [h, ne_eq, not_true_eq_false, decide_false, Bool.false_eq_true, ↓reduceIte, ih,
        Memory.read]
      split <;> simp_all
    · simp only [ne_eq, h, not_false_eq_true, decide_true, ↓reduceIte, Memory.read, ih]
      by_cases hb : b = c.1
      · subst hb; simp [h]
      · simp [hb]

/-- Placing an entry for an address that is not listed makes it read as the entry's byte, and leaves
every other address. -/
theorem Memory.read_place (m : Memory) (a : Nat) (u : Byte) (b : Nat)
    (ha : ∀ c ∈ m, c.1 ≠ a) :
    (m.place a u).read b = if b = a then u else m.read b := by
  induction m with
  | nil => simp [Memory.place, Memory.read]
  | cons c rest ih =>
    have hc : c.1 ≠ a := ha c (by simp)
    have ih := ih (fun d hd => ha d (by simp [hd]))
    simp only [Memory.place]
    by_cases h : a < c.1
    · simp [h, Memory.read]
    · simp only [h, ↓reduceIte, Memory.read, ih]
      by_cases hb : b = c.1
      · subst hb; simp [hc]
      · simp [hb]

theorem Memory.mem_without {m : Memory} {a : Nat} {c : Host.Cell} :
    c ∈ m.without a ↔ c ∈ m ∧ c.1 ≠ a := by
  simp [Memory.without, List.mem_filter]

/-- Read after write (R43): the address written answers the byte, every other address what it did. -/
theorem Memory.read_write (m : Memory) (a : Nat) (u : Byte) (b : Nat) :
    (m.write a u).read b = if b = a then u else m.read b := by
  unfold Memory.write
  split
  · next h => rw [Memory.read_without]; split <;> simp_all
  · rw [Memory.read_place _ _ _ _ (fun c hc => (Memory.mem_without.mp hc).2), Memory.read_without]
    split <;> simp_all

@[simp] theorem Memory.read_write_same (m : Memory) (a : Nat) (u : Byte) :
    (m.write a u).read a = u := by simp [Memory.read_write]

theorem Memory.read_write_ne (m : Memory) {a b : Nat} (u : Byte) (h : b ≠ a) :
    (m.write a u).read b = m.read b := by simp [Memory.read_write, h]

theorem Memory.mem_place {m : Memory} {a : Nat} {u : Byte} {c : Host.Cell} :
    c ∈ m.place a u ↔ c = (a, u) ∨ c ∈ m := by
  induction m with
  | nil => simp [Memory.place]
  | cons d rest ih =>
    simp only [Memory.place]
    split
    · simp
    · simp only [List.mem_cons, ih]; tauto

theorem Memory.wf_without {m : Memory} (a : Nat) (h : m.wf) : (m.without a).wf :=
  ⟨h.1.filter _, fun c hc => h.2 c (Memory.mem_without.mp hc).1⟩

theorem Memory.pairwise_place {m : Memory} {a : Nat} (u : Byte)
    (hm : m.Pairwise (fun c d => c.1 < d.1)) (ha : ∀ c ∈ m, c.1 ≠ a) :
    (m.place a u).Pairwise (fun c d => c.1 < d.1) := by
  induction m with
  | nil => simp [Memory.place]
  | cons d rest ih =>
    have hd : d.1 ≠ a := ha d (by simp)
    obtain ⟨hlow, hrest⟩ := List.pairwise_cons.mp hm
    simp only [Memory.place]
    split
    · next h =>
      refine List.pairwise_cons.mpr ⟨fun c hc => ?_, hm⟩
      rcases List.mem_cons.mp hc with rfl | hc
      · exact h
      · exact h.trans (hlow c hc)
    · next h =>
      refine List.pairwise_cons.mpr ⟨fun c hc => ?_, ih hrest (fun c hc => ha c (by simp [hc]))⟩
      rcases Memory.mem_place.mp hc with rfl | hc
      · simp only; omega
      · exact hlow c hc

/-- A write inside the 4096 bytes keeps the canonical form. -/
theorem Memory.wf_write {m : Memory} {a : Nat} (u : Byte) (ha : a < 4096) (h : m.wf) :
    (m.write a u).wf := by
  unfold Memory.write
  split
  · exact Memory.wf_without a h
  · next hu =>
    have hw := Memory.wf_without a h
    refine ⟨Memory.pairwise_place u hw.1 (fun c hc => (Memory.mem_without.mp hc).2), fun c hc => ?_⟩
    rcases Memory.mem_place.mp hc with rfl | hc
    · exact ⟨ha, hu⟩
    · exact hw.2 c hc

theorem Memory.wf_nil : Memory.wf [] := by simp [Memory.wf]

/-- Two canonical memories that read alike everywhere are the same list. -/
theorem Memory.ext_of_wf {m n : Memory} (hm : m.wf) (hn : n.wf) (h : ∀ a, m.read a = n.read a) :
    m = n := by
  have low : ∀ {l : Memory} {c : Host.Cell}, Memory.wf (c :: l) → ∀ a, a ≤ c.1 →
      l.read a = Memory.unlisted a := by
    intro l c hl a ha
    have hlow := (List.pairwise_cons.mp hl.1).1
    clear hl
    induction l with
    | nil => rfl
    | cons d rest ih =>
      have := hlow d (by simp)
      rw [Memory.read, if_neg (by omega), ih (fun e he => hlow e (by simp [he]))]
  have tail : ∀ {l : Memory} {c : Host.Cell}, Memory.wf (c :: l) → l.wf := fun hl =>
    ⟨(List.pairwise_cons.mp hl.1).2, fun e he => hl.2 e (by simp [he])⟩
  have head : ∀ {l : Memory} {c : Host.Cell}, Memory.wf (c :: l) →
      Memory.read (c :: l) c.1 ≠ Memory.unlisted c.1 := fun hl => by
    simpa [Memory.read] using (hl.2 _ (by simp)).2
  have below : ∀ {l : Memory} {c : Host.Cell}, Memory.wf (c :: l) → ∀ a, a < c.1 →
      Memory.read (c :: l) a = Memory.unlisted a := fun hl a ha => by
    rw [Memory.read, if_neg (by omega), low hl a (by omega)]
  induction m generalizing n with
  | nil =>
    cases n with
    | nil => rfl
    | cons d n => exact absurd (h d.1).symm (head hn)
  | cons c m ih =>
    cases n with
    | nil => exact absurd (h c.1) (head hm)
    | cons d n =>
      have hcd : c.1 = d.1 := by
        rcases Nat.lt_trichotomy c.1 d.1 with hlt | heq | hgt
        · exact absurd ((h c.1).trans (below hn _ hlt)) (head hm)
        · exact heq
        · exact absurd ((h d.1).symm.trans (below hm _ hgt)) (head hn)
      have hv : c.2 = d.2 := by
        have := h c.1
        rwa [Memory.read, if_pos rfl, Memory.read, if_pos hcd] at this
      have hc : c = d := Prod.ext hcd hv
      subst hc
      rw [ih (tail hm) (tail hn) (fun a => ?_)]
      by_cases ha : a = c.1
      · rw [low hm a (by omega), low hn a (by omega)]
      · have := h a
        rwa [Memory.read, if_neg ha, Memory.read, if_neg ha] at this

end Sys2Proof.Machine
end

