-- ==== Sys2Proof/Laws/State.lean ====
section
/-!
SUPPORT. What each update of the state leaves in each field: one lemma for each field of each update, so
that no proof unfolds a record update.  The registers of an updated state are in `Laws/Ops.lean`.
-/

namespace Sys2Proof.Machine

variable (s : State)

/-! ### `setReg` -/

theorem State.setReg_v (x : Reg) (b : Byte) : (s.setReg x b).v = s.v.set x.val b := rfl
@[simp] theorem State.setReg_i (x : Reg) (b : Byte) : (s.setReg x b).i = s.i := rfl
@[simp] theorem State.setReg_pc (x : Reg) (b : Byte) : (s.setReg x b).pc = s.pc := rfl
@[simp] theorem State.setReg_dt (x : Reg) (b : Byte) : (s.setReg x b).dt = s.dt := rfl
@[simp] theorem State.setReg_st (x : Reg) (b : Byte) : (s.setReg x b).st = s.st := rfl
@[simp] theorem State.setReg_stack (x : Reg) (b : Byte) : (s.setReg x b).stack = s.stack := rfl
@[simp] theorem State.setReg_sp (x : Reg) (b : Byte) : (s.setReg x b).sp = s.sp := rfl
@[simp] theorem State.setReg_mem (x : Reg) (b : Byte) : (s.setReg x b).mem = s.mem := rfl
@[simp] theorem State.setReg_fb (x : Reg) (b : Byte) : (s.setReg x b).fb = s.fb := rfl
@[simp] theorem State.setReg_key (x : Reg) (b : Byte) : (s.setReg x b).key = s.key := rfl
@[simp] theorem State.setReg_rng (x : Reg) (b : Byte) : (s.setReg x b).rng = s.rng := rfl

/-! ### `setPc` -/

@[simp] theorem State.setPc_v (a : Word) : (s.setPc a).v = s.v := rfl
@[simp] theorem State.setPc_i (a : Word) : (s.setPc a).i = s.i := rfl
@[simp] theorem State.setPc_pc (a : Word) : (s.setPc a).pc = a := rfl
@[simp] theorem State.setPc_dt (a : Word) : (s.setPc a).dt = s.dt := rfl
@[simp] theorem State.setPc_st (a : Word) : (s.setPc a).st = s.st := rfl
@[simp] theorem State.setPc_stack (a : Word) : (s.setPc a).stack = s.stack := rfl
@[simp] theorem State.setPc_sp (a : Word) : (s.setPc a).sp = s.sp := rfl
@[simp] theorem State.setPc_mem (a : Word) : (s.setPc a).mem = s.mem := rfl
@[simp] theorem State.setPc_fb (a : Word) : (s.setPc a).fb = s.fb := rfl
@[simp] theorem State.setPc_key (a : Word) : (s.setPc a).key = s.key := rfl
@[simp] theorem State.setPc_rng (a : Word) : (s.setPc a).rng = s.rng := rfl

/-! ### `next` -/

@[simp] theorem State.next_v : s.next.v = s.v := rfl
@[simp] theorem State.next_i : s.next.i = s.i := rfl
@[simp] theorem State.next_pc : s.next.pc = s.pc + 2 := rfl
@[simp] theorem State.next_dt : s.next.dt = s.dt := rfl
@[simp] theorem State.next_st : s.next.st = s.st := rfl
@[simp] theorem State.next_stack : s.next.stack = s.stack := rfl
@[simp] theorem State.next_sp : s.next.sp = s.sp := rfl
@[simp] theorem State.next_mem : s.next.mem = s.mem := rfl
@[simp] theorem State.next_fb : s.next.fb = s.fb := rfl
@[simp] theorem State.next_key : s.next.key = s.key := rfl
@[simp] theorem State.next_rng : s.next.rng = s.rng := rfl

/-! ### `skipIf` -/

@[simp] theorem State.skipIf_v (c : Bool) : (s.skipIf c).v = s.v := rfl
@[simp] theorem State.skipIf_i (c : Bool) : (s.skipIf c).i = s.i := rfl
@[simp] theorem State.skipIf_pc (c : Bool) : (s.skipIf c).pc = if c then s.pc + 4 else s.pc + 2 := rfl
@[simp] theorem State.skipIf_dt (c : Bool) : (s.skipIf c).dt = s.dt := rfl
@[simp] theorem State.skipIf_st (c : Bool) : (s.skipIf c).st = s.st := rfl
@[simp] theorem State.skipIf_stack (c : Bool) : (s.skipIf c).stack = s.stack := rfl
@[simp] theorem State.skipIf_sp (c : Bool) : (s.skipIf c).sp = s.sp := rfl
@[simp] theorem State.skipIf_mem (c : Bool) : (s.skipIf c).mem = s.mem := rfl
@[simp] theorem State.skipIf_fb (c : Bool) : (s.skipIf c).fb = s.fb := rfl
@[simp] theorem State.skipIf_key (c : Bool) : (s.skipIf c).key = s.key := rfl
@[simp] theorem State.skipIf_rng (c : Bool) : (s.skipIf c).rng = s.rng := rfl

/-! ### `setI` -/

@[simp] theorem State.setI_v (a : Word) : (s.setI a).v = s.v := rfl
@[simp] theorem State.setI_i (a : Word) : (s.setI a).i = a := rfl
@[simp] theorem State.setI_pc (a : Word) : (s.setI a).pc = s.pc := rfl
@[simp] theorem State.setI_dt (a : Word) : (s.setI a).dt = s.dt := rfl
@[simp] theorem State.setI_st (a : Word) : (s.setI a).st = s.st := rfl
@[simp] theorem State.setI_stack (a : Word) : (s.setI a).stack = s.stack := rfl
@[simp] theorem State.setI_sp (a : Word) : (s.setI a).sp = s.sp := rfl
@[simp] theorem State.setI_mem (a : Word) : (s.setI a).mem = s.mem := rfl
@[simp] theorem State.setI_fb (a : Word) : (s.setI a).fb = s.fb := rfl
@[simp] theorem State.setI_key (a : Word) : (s.setI a).key = s.key := rfl
@[simp] theorem State.setI_rng (a : Word) : (s.setI a).rng = s.rng := rfl

/-! ### `setDt` -/

@[simp] theorem State.setDt_v (b : Byte) : (s.setDt b).v = s.v := rfl
@[simp] theorem State.setDt_i (b : Byte) : (s.setDt b).i = s.i := rfl
@[simp] theorem State.setDt_pc (b : Byte) : (s.setDt b).pc = s.pc := rfl
@[simp] theorem State.setDt_dt (b : Byte) : (s.setDt b).dt = b := rfl
@[simp] theorem State.setDt_st (b : Byte) : (s.setDt b).st = s.st := rfl
@[simp] theorem State.setDt_stack (b : Byte) : (s.setDt b).stack = s.stack := rfl
@[simp] theorem State.setDt_sp (b : Byte) : (s.setDt b).sp = s.sp := rfl
@[simp] theorem State.setDt_mem (b : Byte) : (s.setDt b).mem = s.mem := rfl
@[simp] theorem State.setDt_fb (b : Byte) : (s.setDt b).fb = s.fb := rfl
@[simp] theorem State.setDt_key (b : Byte) : (s.setDt b).key = s.key := rfl
@[simp] theorem State.setDt_rng (b : Byte) : (s.setDt b).rng = s.rng := rfl

/-! ### `setSt` -/

@[simp] theorem State.setSt_v (b : Byte) : (s.setSt b).v = s.v := rfl
@[simp] theorem State.setSt_i (b : Byte) : (s.setSt b).i = s.i := rfl
@[simp] theorem State.setSt_pc (b : Byte) : (s.setSt b).pc = s.pc := rfl
@[simp] theorem State.setSt_dt (b : Byte) : (s.setSt b).dt = s.dt := rfl
@[simp] theorem State.setSt_st (b : Byte) : (s.setSt b).st = b := rfl
@[simp] theorem State.setSt_stack (b : Byte) : (s.setSt b).stack = s.stack := rfl
@[simp] theorem State.setSt_sp (b : Byte) : (s.setSt b).sp = s.sp := rfl
@[simp] theorem State.setSt_mem (b : Byte) : (s.setSt b).mem = s.mem := rfl
@[simp] theorem State.setSt_fb (b : Byte) : (s.setSt b).fb = s.fb := rfl
@[simp] theorem State.setSt_key (b : Byte) : (s.setSt b).key = s.key := rfl
@[simp] theorem State.setSt_rng (b : Byte) : (s.setSt b).rng = s.rng := rfl

/-! ### `setFb` -/

@[simp] theorem State.setFb_v (fb : Framebuffer) : (s.setFb fb).v = s.v := rfl
@[simp] theorem State.setFb_i (fb : Framebuffer) : (s.setFb fb).i = s.i := rfl
@[simp] theorem State.setFb_pc (fb : Framebuffer) : (s.setFb fb).pc = s.pc := rfl
@[simp] theorem State.setFb_dt (fb : Framebuffer) : (s.setFb fb).dt = s.dt := rfl
@[simp] theorem State.setFb_st (fb : Framebuffer) : (s.setFb fb).st = s.st := rfl
@[simp] theorem State.setFb_stack (fb : Framebuffer) : (s.setFb fb).stack = s.stack := rfl
@[simp] theorem State.setFb_sp (fb : Framebuffer) : (s.setFb fb).sp = s.sp := rfl
@[simp] theorem State.setFb_mem (fb : Framebuffer) : (s.setFb fb).mem = s.mem := rfl
@[simp] theorem State.setFb_fb (fb : Framebuffer) : (s.setFb fb).fb = fb := rfl
@[simp] theorem State.setFb_key (fb : Framebuffer) : (s.setFb fb).key = s.key := rfl
@[simp] theorem State.setFb_rng (fb : Framebuffer) : (s.setFb fb).rng = s.rng := rfl

/-! ### `memWrite` -/

@[simp] theorem State.memWrite_v (a : Word) (b : Byte) : (s.memWrite a b).v = s.v := rfl
@[simp] theorem State.memWrite_i (a : Word) (b : Byte) : (s.memWrite a b).i = s.i := rfl
@[simp] theorem State.memWrite_pc (a : Word) (b : Byte) : (s.memWrite a b).pc = s.pc := rfl
@[simp] theorem State.memWrite_dt (a : Word) (b : Byte) : (s.memWrite a b).dt = s.dt := rfl
@[simp] theorem State.memWrite_st (a : Word) (b : Byte) : (s.memWrite a b).st = s.st := rfl
@[simp] theorem State.memWrite_stack (a : Word) (b : Byte) : (s.memWrite a b).stack = s.stack := rfl
@[simp] theorem State.memWrite_sp (a : Word) (b : Byte) : (s.memWrite a b).sp = s.sp := rfl
@[simp] theorem State.memWrite_mem (a : Word) (b : Byte) : (s.memWrite a b).mem = s.mem.write (memIndex a) b := rfl
@[simp] theorem State.memWrite_fb (a : Word) (b : Byte) : (s.memWrite a b).fb = s.fb := rfl
@[simp] theorem State.memWrite_key (a : Word) (b : Byte) : (s.memWrite a b).key = s.key := rfl
@[simp] theorem State.memWrite_rng (a : Word) (b : Byte) : (s.memWrite a b).rng = s.rng := rfl

/-! ### `advanceRng` -/

@[simp] theorem State.advanceRng_v : s.advanceRng.v = s.v := rfl
@[simp] theorem State.advanceRng_i : s.advanceRng.i = s.i := rfl
@[simp] theorem State.advanceRng_pc : s.advanceRng.pc = s.pc := rfl
@[simp] theorem State.advanceRng_dt : s.advanceRng.dt = s.dt := rfl
@[simp] theorem State.advanceRng_st : s.advanceRng.st = s.st := rfl
@[simp] theorem State.advanceRng_stack : s.advanceRng.stack = s.stack := rfl
@[simp] theorem State.advanceRng_sp : s.advanceRng.sp = s.sp := rfl
@[simp] theorem State.advanceRng_mem : s.advanceRng.mem = s.mem := rfl
@[simp] theorem State.advanceRng_fb : s.advanceRng.fb = s.fb := rfl
@[simp] theorem State.advanceRng_key : s.advanceRng.key = s.key := rfl
@[simp] theorem State.advanceRng_rng : s.advanceRng.rng = lcgNext Params.rngW Params.rngA Params.rngC s.rng := rfl

/-! ### `clearKeys` -/

@[simp] theorem State.clearKeys_v : s.clearKeys.v = s.v := rfl
@[simp] theorem State.clearKeys_i : s.clearKeys.i = s.i := rfl
@[simp] theorem State.clearKeys_pc : s.clearKeys.pc = s.pc := rfl
@[simp] theorem State.clearKeys_dt : s.clearKeys.dt = s.dt := rfl
@[simp] theorem State.clearKeys_st : s.clearKeys.st = s.st := rfl
@[simp] theorem State.clearKeys_stack : s.clearKeys.stack = s.stack := rfl
@[simp] theorem State.clearKeys_sp : s.clearKeys.sp = s.sp := rfl
@[simp] theorem State.clearKeys_mem : s.clearKeys.mem = s.mem := rfl
@[simp] theorem State.clearKeys_fb : s.clearKeys.fb = s.fb := rfl
@[simp] theorem State.clearKeys_key : s.clearKeys.key = noKeys := rfl
@[simp] theorem State.clearKeys_rng : s.clearKeys.rng = s.rng := rfl

/-! ### `flagThenResult` -/

theorem State.flagThenResult_v (x : Reg) (c : Bool) (b : Byte) : (s.flagThenResult x c b).v = (s.v.set 15 (flagByte c)).set x.val b := rfl
@[simp] theorem State.flagThenResult_i (x : Reg) (c : Bool) (b : Byte) : (s.flagThenResult x c b).i = s.i := rfl
@[simp] theorem State.flagThenResult_pc (x : Reg) (c : Bool) (b : Byte) : (s.flagThenResult x c b).pc = s.pc := rfl
@[simp] theorem State.flagThenResult_dt (x : Reg) (c : Bool) (b : Byte) : (s.flagThenResult x c b).dt = s.dt := rfl
@[simp] theorem State.flagThenResult_st (x : Reg) (c : Bool) (b : Byte) : (s.flagThenResult x c b).st = s.st := rfl
@[simp] theorem State.flagThenResult_stack (x : Reg) (c : Bool) (b : Byte) : (s.flagThenResult x c b).stack = s.stack := rfl
@[simp] theorem State.flagThenResult_sp (x : Reg) (c : Bool) (b : Byte) : (s.flagThenResult x c b).sp = s.sp := rfl
@[simp] theorem State.flagThenResult_mem (x : Reg) (c : Bool) (b : Byte) : (s.flagThenResult x c b).mem = s.mem := rfl
@[simp] theorem State.flagThenResult_fb (x : Reg) (c : Bool) (b : Byte) : (s.flagThenResult x c b).fb = s.fb := rfl
@[simp] theorem State.flagThenResult_key (x : Reg) (c : Bool) (b : Byte) : (s.flagThenResult x c b).key = s.key := rfl
@[simp] theorem State.flagThenResult_rng (x : Reg) (c : Bool) (b : Byte) : (s.flagThenResult x c b).rng = s.rng := rfl

/-! ### `resultThenFlag` -/

theorem State.resultThenFlag_v (x : Reg) (b : Byte) (c : Bool) : (s.resultThenFlag x b c).v = (s.v.set x.val b).set 15 (flagByte c) := rfl
@[simp] theorem State.resultThenFlag_i (x : Reg) (b : Byte) (c : Bool) : (s.resultThenFlag x b c).i = s.i := rfl
@[simp] theorem State.resultThenFlag_pc (x : Reg) (b : Byte) (c : Bool) : (s.resultThenFlag x b c).pc = s.pc := rfl
@[simp] theorem State.resultThenFlag_dt (x : Reg) (b : Byte) (c : Bool) : (s.resultThenFlag x b c).dt = s.dt := rfl
@[simp] theorem State.resultThenFlag_st (x : Reg) (b : Byte) (c : Bool) : (s.resultThenFlag x b c).st = s.st := rfl
@[simp] theorem State.resultThenFlag_stack (x : Reg) (b : Byte) (c : Bool) : (s.resultThenFlag x b c).stack = s.stack := rfl
@[simp] theorem State.resultThenFlag_sp (x : Reg) (b : Byte) (c : Bool) : (s.resultThenFlag x b c).sp = s.sp := rfl
@[simp] theorem State.resultThenFlag_mem (x : Reg) (b : Byte) (c : Bool) : (s.resultThenFlag x b c).mem = s.mem := rfl
@[simp] theorem State.resultThenFlag_fb (x : Reg) (b : Byte) (c : Bool) : (s.resultThenFlag x b c).fb = s.fb := rfl
@[simp] theorem State.resultThenFlag_key (x : Reg) (b : Byte) (c : Bool) : (s.resultThenFlag x b c).key = s.key := rfl
@[simp] theorem State.resultThenFlag_rng (x : Reg) (b : Byte) (c : Bool) : (s.resultThenFlag x b c).rng = s.rng := rfl

end Sys2Proof.Machine
end

