-- ==== Sys2Proof/Laws/Ops.lean ====
section
/-!
SUPPORT. One lemma for each shared operation that says everything it can do; proofs cite these and do not
unfold the operation.
-/

namespace Sys2Proof.Machine

variable (s : State)

/-! ### Registers -/

theorem State.reg_setReg (x : Reg) (b : Byte) (y : Reg) :
    (s.setReg x b).reg y = if y = x then b else s.reg y := by
  simp only [State.reg, State.setReg, Vector.getElem_set, Fin.ext_iff, eq_comm]

@[simp] theorem State.reg_setReg_same (x : Reg) (b : Byte) : (s.setReg x b).reg x = b := by
  simp [State.reg_setReg]

theorem State.reg_setReg_ne {x y : Reg} (b : Byte) (h : y ≠ x) :
    (s.setReg x b).reg y = s.reg y := by simp [State.reg_setReg, h]

theorem State.reg_of_v {s t : State} (h : t.v = s.v) (x : Reg) : t.reg x = s.reg x := by
  simp only [State.reg, h]

/-- States that agree on every register have the same register file. -/
theorem State.v_ext {s t : State} (h : ∀ x, t.reg x = s.reg x) : t.v = s.v :=
  Vector.ext fun k hk => h ⟨k, hk⟩

@[simp] theorem State.reg_next (x : Reg) : s.next.reg x = s.reg x := rfl

@[simp] theorem State.reg_setPc (a : Word) (x : Reg) : (s.setPc a).reg x = s.reg x := rfl

@[simp] theorem State.reg_memWrite (a : Word) (b : Byte) (x : Reg) :
    (s.memWrite a b).reg x = s.reg x := rfl

@[simp] theorem State.reg_advanceRng (x : Reg) : s.advanceRng.reg x = s.reg x := rfl

@[simp] theorem State.reg_clearKeys (x : Reg) : s.clearKeys.reg x = s.reg x := rfl

@[simp] theorem State.reg_setFb (fb : Framebuffer) (x : Reg) : (s.setFb fb).reg x = s.reg x := rfl

/-- The flag is written first, so a destination `VF` keeps the result (R12, R127). -/
theorem State.reg_flagThenResult (x : Reg) (c : Bool) (b : Byte) (y : Reg) :
    (s.flagThenResult x c b).reg y =
      if y = x then b else if y = regF then flagByte c else s.reg y := by
  simp only [State.flagThenResult, State.reg_setReg]

/-- The flag is written last, so a destination `VF` keeps the flag (R12, R129). -/
theorem State.reg_resultThenFlag (x : Reg) (b : Byte) (c : Bool) (y : Reg) :
    (s.resultThenFlag x b c).reg y =
      if y = regF then flagByte c else if y = x then b else s.reg y := by
  simp only [State.resultThenFlag, State.reg_setReg]

/-! ### Memory -/

theorem memIndex_lt (a : Word) : memIndex a < 4096 := Nat.mod_lt _ (by omega)

theorem State.memRead_memWrite (a : Word) (u : Byte) (b : Word) :
    (s.memWrite a u).memRead b = if memIndex b = memIndex a then u else s.memRead b := by
  simp only [State.memRead, State.memWrite, Memory.read_write]

theorem State.memRead_of_mem {s t : State} (h : t.mem = s.mem) (a : Word) :
    t.memRead a = s.memRead a := by simp only [State.memRead, h]

/-- The bytes of a memory operand lie at `(I + k) mod 4096` (R41, R140). -/
theorem State.memIndex_dataAddr (k : Nat) :
    memIndex (s.dataAddr k) = (s.i.toNat + k) % 4096 := by
  simp only [memIndex, State.dataAddr, BitVec.toNat_add, BitVec.toNat_ofNat]
  omega

theorem State.dataAddr_of_i {s t : State} (h : t.i = s.i) (k : Nat) :
    t.dataAddr k = s.dataAddr k := by simp only [State.dataAddr, h]

/-- Two bytes of one memory operand, fewer than 4096 apart, are different bytes. -/
theorem State.memIndex_dataAddr_inj {j k : Nat} (hj : j < 4096) (hk : k < 4096)
    (h : memIndex (s.dataAddr j) = memIndex (s.dataAddr k)) : j = k := by
  simp only [State.memIndex_dataAddr] at h
  omega

/-! ### Block copies -/

@[simp] theorem State.storeRegs_v (n : Nat) : (s.storeRegs n).v = s.v := by
  induction n with
  | zero => rfl
  | succ n ih => simpa [State.storeRegs] using ih

/-- A block store changes memory and nothing else. -/
theorem State.storeRegs_frame (n : Nat) :
    s.storeRegs n = { s with mem := (s.storeRegs n).mem } := by
  induction n with
  | zero => rfl
  | succ n ih => rw [State.storeRegs, State.memWrite, ih]

/-- A block store: byte `k` of the operand holds register `k` for every `k` stored, and every other
byte of memory is as it was (R145). -/
theorem State.read_storeRegs (n : Nat) (hn : n ≤ 16) (a : Nat) :
    (s.storeRegs n).mem.read a =
      if h : (a + (4096 - s.i.toNat % 4096)) % 4096 < n ∧ a < 4096
      then s.reg ⟨(a + (4096 - s.i.toNat % 4096)) % 4096, by omega⟩ else s.mem.read a := by
  induction n with
  | zero => simp [State.storeRegs]
  | succ n ih =>
    simp only [State.storeRegs, State.memWrite_mem, Memory.read_write, State.memIndex_dataAddr]
    rw [ih (by omega)]
    by_cases ha : a = (s.i.toNat + n) % 4096
    · have hk : (a + (4096 - s.i.toNat % 4096)) % 4096 = n := by omega
      rw [if_pos ha, dif_pos ⟨by omega, by omega⟩]
      congr 1
      apply Fin.ext
      simp only [Fin.val_ofNat, hk]
      omega
    · rw [if_neg ha]
      by_cases hc : (a + (4096 - s.i.toNat % 4096)) % 4096 < n ∧ a < 4096
      · rw [dif_pos hc, dif_pos ⟨by omega, hc.2⟩]
      · rw [dif_neg hc, dif_neg (by omega)]

/-- A block load changes registers and nothing else. -/
theorem State.loadRegs_frame (n : Nat) :
    s.loadRegs n = { s with v := (s.loadRegs n).v } := by
  induction n with
  | zero => rfl
  | succ n ih => rw [State.loadRegs, State.setReg, ih]

/-- A block load: register `k` holds byte `k` of the operand for every `k` loaded, and the registers
above are as they were (R146). -/
theorem State.reg_loadRegs (n : Nat) (hn : n ≤ 16) (y : Reg) :
    (s.loadRegs n).reg y = if y.val < n then s.memRead (s.dataAddr y.val) else s.reg y := by
  induction n with
  | zero => simp [State.loadRegs]
  | succ n ih =>
    rw [State.loadRegs, State.reg_setReg, ih (by omega)]
    by_cases hy : y = Fin.ofNat 16 n
    · have : y.val = n := by rw [hy]; simp only [Fin.val_ofNat]; omega
      rw [if_pos hy, if_pos (by omega), this]
    · have : y.val ≠ n := fun h => hy (Fin.ext (by simp only [Fin.val_ofNat]; omega))
      rw [if_neg hy]
      split <;> split <;> first | rfl | omega

/-! ### The call stack -/

/-- A push fails exactly on a full stack (R17). -/
theorem State.push_eq_none (a : Word) : s.push a = none ↔ s.sp = 16 := by
  unfold State.push
  have hlt := s.sp.isLt
  split
  · next h => simpa using fun h16 : s.sp = 16 => absurd (h16 ▸ h) (by decide)
  · next h => simpa using Fin.ext (show s.sp.val = 16 by omega)

/-- A push that succeeds (R17). -/
theorem State.push_eq_some {a : Word} {t : State} (h : s.push a = some t) :
    ∃ hsp : s.sp.val < 16, t.sp.val = s.sp.val + 1 ∧ t.stack = s.stack.set s.sp.val a ∧
      t = { s with stack := t.stack, sp := t.sp } := by
  unfold State.push at h
  split at h
  · next hsp => cases h; exact ⟨hsp, rfl, rfl, rfl⟩
  · cases h

/-- A pop fails exactly on an empty stack (R17). -/
theorem State.pop_eq_none : s.pop = none ↔ s.sp = 0 := by
  unfold State.pop
  split
  · next h => simpa using fun h0 : s.sp = 0 => absurd (h0 ▸ h) (by decide)
  · next h => simpa using Fin.ext (by simpa using h)

/-- A pop that succeeds leaves the entry in place (R17). -/
theorem State.pop_eq_some {a : Word} {t : State} (h : s.pop = some (a, t)) :
    ∃ hsp : 0 < s.sp.val, t.sp.val + 1 = s.sp.val ∧
      a = s.stack[s.sp.val - 1]'(by have := s.sp.isLt; omega) ∧ t = { s with sp := t.sp } := by
  unfold State.pop at h
  split at h
  · next hsp => cases h; exact ⟨hsp, by simp only; omega, rfl, rfl⟩
  · cases h

/-! ### The generator -/

/-- The generator stays inside its width (R161). -/
theorem lcgNext_lt (w a c r : Nat) : lcgNext w a c r < 2 ^ w := Nat.mod_lt _ (by positivity)

theorem Params.rngSeed_lt : Params.rngSeed < 2 ^ Params.rngW := Nat.mod_lt _ (by positivity)

/-! ### The key latch -/

@[simp] theorem State.keyDown_clearKeys (k : Key) : s.clearKeys.keyDown k = false := by
  simp [State.keyDown, State.clearKeys, noKeys]

/-- No key is found exactly when none is latched (R193). -/
theorem State.leastKey_eq_none : s.leastKey = none ↔ ∀ k, s.keyDown k = false := by
  simp [State.leastKey, List.find?_eq_none]

/-- The key found is latched, and no lower one is (R193). -/
theorem State.leastKey_eq_some (k : Key) :
    s.leastKey = some k ↔ s.keyDown k = true ∧ ∀ j < k, s.keyDown j = false := by
  have hpw : (List.finRange 16).Pairwise (· < ·) := List.pairwise_lt_finRange 16
  rw [State.leastKey, List.find?_eq_some_iff_append]
  constructor
  · rintro ⟨hk, as, bs, hl, hno⟩
    refine ⟨hk, fun j hj => ?_⟩
    have hmem : j ∈ as ++ k :: bs := hl ▸ List.mem_finRange j
    rw [hl, List.pairwise_append, List.pairwise_cons] at hpw
    rcases List.mem_append.mp hmem with h | h
    · simpa using hno j h
    · rcases List.mem_cons.mp h with rfl | h
      · exact absurd hj (lt_irrefl _)
      · exact absurd hj (not_lt.mpr (hpw.2.1.1 j h).le)
  · rintro ⟨hk, hno⟩
    obtain ⟨as, bs, hl⟩ := List.append_of_mem (List.mem_finRange k)
    refine ⟨hk, as, bs, hl, fun j hj => ?_⟩
    rw [hl, List.pairwise_append] at hpw
    simpa using hno j (hpw.2.2 j hj k (by simp))

/-! ### The step -/

/-- Everything a step that answers a next state can have done (R80). -/
theorem step_eq_next {s t : State} :
    step s = .next t ↔
      ∃ i u, decode s.fetch = .ok i ∧ exec i s = .next u ∧ t = u.clearKeys := by
  unfold step
  cases hd : decode s.fetch with
  | error r => simp [raise]
  | ok i => cases he : exec i s <;> simp [finishStep, he, eq_comm]

/-- Everything a step that faults can have done (R80, R83). -/
theorem step_eq_fault {s : State} {f : Fault} :
    step s = .fault f ↔
      ((∃ r, decode s.fetch = .error r) ∧ f = .unknownOpCode) ∨
        ∃ i, decode s.fetch = .ok i ∧ exec i s = .fault f := by
  unfold step
  cases hd : decode s.fetch with
  | error r => simp [raise, eq_comm]
  | ok i => cases he : exec i s <;> simp [finishStep, he]

end Sys2Proof.Machine
end

