-- ==== Sys2Proof/Laws/Events.lean ====
section
/-!
SUPPORT. What the driver's events leave (R221, R225, R253), and which operations keep the invariant.
-/

namespace Sys2Proof.Machine

/-! ### Events -/

/-- A timer on a tick goes down by one and stops at 0 (R221). -/
theorem tickDown_toNat (b : Byte) : (tickDown b).toNat = b.toNat - 1 := by
  unfold tickDown
  split
  · next h => simp [h]
  · next h =>
    have : b.toNat ≠ 0 := fun h0 => h (BitVec.eq_of_toNat_eq h0)
    have := b.isLt
    rw [BitVec.toNat_sub, show (1 : Byte).toNat = 1 from rfl]
    omega

/-- The bytes a copy leaves: the `k`-th byte at `a + k`, and every other byte as it was (R253). -/
theorem read_copyBytes (l : List Byte) (a : Nat) (m : Memory) (b : Nat) :
    (copyBytes l a m).read b =
      if h : a ≤ b ∧ b < a + l.length then l[b - a] else m.read b := by
  induction l generalizing a m with
  | nil => simp [copyBytes]
  | cons u rest ih =>
    rw [copyBytes, ih, Memory.read_write]
    by_cases h : a + 1 ≤ b ∧ b < a + 1 + rest.length
    · rw [dif_pos h, dif_pos (by simp only [List.length_cons]; omega)]
      have : b - a = b - (a + 1) + 1 := by omega
      simp only [this, List.getElem_cons_succ]
    · rw [dif_neg h]
      by_cases hb : b = a
      · subst hb; simp
      · rw [if_neg hb, dif_neg (by simp only [List.length_cons]; omega)]

@[simp] theorem keyDown_setKey (s : State) (k j : Key) :
    (setKey k s).keyDown j = (decide (j = k) || s.keyDown j) := by
  simp only [State.keyDown, setKey, Vector.getElem_set, Fin.ext_iff, eq_comm]
  split <;> simp_all

/-! ### The invariant -/

/-- The invariant depends on memory and the generator alone. -/
theorem State.Inv.of_eq {s t : State} (h : s.Inv) (hm : t.mem = s.mem) (hr : t.rng = s.rng) :
    t.Inv := by
  unfold State.Inv at h ⊢
  rwa [hm, hr]

theorem State.Inv.memWrite {s : State} (h : s.Inv) (a : Word) (b : Byte) : (s.memWrite a b).Inv :=
  ⟨Memory.wf_write b (memIndex_lt a) h.1, h.2⟩

theorem State.Inv.storeRegs {s : State} (h : s.Inv) (n : Nat) : (s.storeRegs n).Inv := by
  induction n with
  | zero => exact h
  | succ n ih => exact ih.memWrite _ _

theorem State.Inv.advanceRng {s : State} (h : s.Inv) : s.advanceRng.Inv :=
  ⟨h.1, lcgNext_lt _ _ _ _⟩

/-- A copy that stays inside memory keeps the canonical form. -/
theorem wf_copyBytes (l : List Byte) {a : Nat} {m : Memory} (ha : a + l.length ≤ 4096)
    (h : m.wf) : (copyBytes l a m).wf := by
  induction l generalizing a m with
  | nil => exact h
  | cons u rest ih =>
    simp only [List.length_cons] at ha
    exact ih (by omega) (Memory.wf_write u (by omega) h)

end Sys2Proof.Machine
end

