-- ==== Sys2Proof/Laws/WellFormed.lean ====
section
/-!
SUPPORT. What a mask of R64 leaves of an encoded word: the fixed bits of its form, with the operand fields
zero.
-/

namespace Sys2Proof

/-! ### The bits of the three encoding forms (R61) -/

theorem getElem_formNNN (op : BitVec 4) (nnn : Imm12) (j : Nat) (hj : j < 16) :
    (formNNN op nnn)[j] = if h : j < 12 then nnn[j] else op[j - 12] := by
  unfold formNNN; grind

theorem getElem_formXKK (op : BitVec 4) (x : Reg) (kk : Byte) (j : Nat) (hj : j < 16) :
    (formXKK op x kk)[j] =
      if h : j < 8 then kk[j] else if h : j < 12 then (nibble x)[j - 8] else op[j - 12] := by
  unfold formXKK; grind

theorem getElem_formXYN (op : BitVec 4) (x y : Reg) (n : BitVec 4) (j : Nat) (hj : j < 16) :
    (formXYN op x y n)[j] =
      if h : j < 4 then n[j] else if h : j < 8 then (nibble y)[j - 4]
      else if h : j < 12 then (nibble x)[j - 8] else op[j - 12] := by
  unfold formXYN; grind

/-! ### The masks of R64 -/

theorem formNNN_and_op (op : BitVec 4) (nnn : Imm12) :
    formNNN op nnn &&& 0xF000 = formNNN op 0 := by
  ext j hj; interval_cases j <;> simp [getElem_formNNN]

theorem formXKK_and_op (op : BitVec 4) (x : Reg) (kk : Byte) :
    formXKK op x kk &&& 0xF000 = formXKK op 0 0 := by
  ext j hj; interval_cases j <;> simp [getElem_formXKK, nibble]

theorem formXKK_and_opKK (op : BitVec 4) (x : Reg) (kk : Byte) :
    formXKK op x kk &&& 0xF0FF = formXKK op 0 kk := by
  ext j hj; interval_cases j <;> simp [getElem_formXKK, nibble]

theorem formXYN_and_op (op : BitVec 4) (x y : Reg) (n : BitVec 4) :
    formXYN op x y n &&& 0xF000 = formXYN op 0 0 0 := by
  ext j hj; interval_cases j <;> simp [getElem_formXYN, nibble]

theorem formXYN_and_opN (op : BitVec 4) (x y : Reg) (n : BitVec 4) :
    formXYN op x y n &&& 0xF00F = formXYN op 0 0 n := by
  ext j hj; interval_cases j <;> simp [getElem_formXYN, nibble]

/-- A word that a row of the table fits is well formed. -/
theorem wordWellFormed_of_row {w : Word} (r : OpRow) (hr : r ∈ opcodeTable)
    (h : w &&& r.mask = r.pattern) : wordWellFormed w = true :=
  List.any_eq_true.mpr ⟨r, hr, by simp [OpRow.fits, h]⟩

/-- A word is well formed exactly when a row of the table fits it. -/
theorem wordWellFormed_iff (w : Word) :
    wordWellFormed w = true ↔ ∃ r ∈ opcodeTable, w &&& r.mask = r.pattern := by
  simp [wordWellFormed, List.any_eq_true, OpRow.fits]

end Sys2Proof
end

