-- ==== Sys2Proof/Laws/PerInstr.lean ====
section
/-!
SUPPORT. Statements for all instructions, one lemma for each constructor.  Family `TableRow`: the word of
an instruction lies in its row of the opcode table of R64, so it is well formed.
-/

namespace Sys2Proof.Laws.TableRow

/-- The encoding of an instruction is a word of the opcode table (R64). -/
def Statement (i : Instr) : Prop := wordWellFormed (encode i) = true

theorem cls : Statement .cls :=
  wordWellFormed_of_row ⟨0xFFFF, 0x00E0⟩ (by decide) (rfl)

theorem ret : Statement .ret :=
  wordWellFormed_of_row ⟨0xFFFF, 0x00EE⟩ (by decide) (rfl)

theorem jp (nnn : Imm12) : Statement (.jp nnn) :=
  wordWellFormed_of_row ⟨0xF000, 0x1000⟩ (by decide) (formNNN_and_op _ _)

theorem call (nnn : Imm12) : Statement (.call nnn) :=
  wordWellFormed_of_row ⟨0xF000, 0x2000⟩ (by decide) (formNNN_and_op _ _)

theorem seImm (x : Reg) (kk : Byte) : Statement (.seImm x kk) :=
  wordWellFormed_of_row ⟨0xF000, 0x3000⟩ (by decide) (formXKK_and_op _ _ _)

theorem sneImm (x : Reg) (kk : Byte) : Statement (.sneImm x kk) :=
  wordWellFormed_of_row ⟨0xF000, 0x4000⟩ (by decide) (formXKK_and_op _ _ _)

theorem seReg (x : Reg) (y : Reg) : Statement (.seReg x y) :=
  wordWellFormed_of_row ⟨0xF00F, 0x5000⟩ (by decide) (formXYN_and_opN _ _ _ _)

theorem ldImm (x : Reg) (kk : Byte) : Statement (.ldImm x kk) :=
  wordWellFormed_of_row ⟨0xF000, 0x6000⟩ (by decide) (formXKK_and_op _ _ _)

theorem addImm (x : Reg) (kk : Byte) : Statement (.addImm x kk) :=
  wordWellFormed_of_row ⟨0xF000, 0x7000⟩ (by decide) (formXKK_and_op _ _ _)

theorem ldReg (x : Reg) (y : Reg) : Statement (.ldReg x y) :=
  wordWellFormed_of_row ⟨0xF00F, 0x8000⟩ (by decide) (formXYN_and_opN _ _ _ _)

theorem orReg (x : Reg) (y : Reg) : Statement (.orReg x y) :=
  wordWellFormed_of_row ⟨0xF00F, 0x8001⟩ (by decide) (formXYN_and_opN _ _ _ _)

theorem andReg (x : Reg) (y : Reg) : Statement (.andReg x y) :=
  wordWellFormed_of_row ⟨0xF00F, 0x8002⟩ (by decide) (formXYN_and_opN _ _ _ _)

theorem xorReg (x : Reg) (y : Reg) : Statement (.xorReg x y) :=
  wordWellFormed_of_row ⟨0xF00F, 0x8003⟩ (by decide) (formXYN_and_opN _ _ _ _)

theorem addReg (x : Reg) (y : Reg) : Statement (.addReg x y) :=
  wordWellFormed_of_row ⟨0xF00F, 0x8004⟩ (by decide) (formXYN_and_opN _ _ _ _)

theorem subReg (x : Reg) (y : Reg) : Statement (.subReg x y) :=
  wordWellFormed_of_row ⟨0xF00F, 0x8005⟩ (by decide) (formXYN_and_opN _ _ _ _)

theorem shrReg (x : Reg) (y : Reg) : Statement (.shrReg x y) :=
  wordWellFormed_of_row ⟨0xF00F, 0x8006⟩ (by decide) (formXYN_and_opN _ _ _ _)

theorem subnReg (x : Reg) (y : Reg) : Statement (.subnReg x y) :=
  wordWellFormed_of_row ⟨0xF00F, 0x8007⟩ (by decide) (formXYN_and_opN _ _ _ _)

theorem shlReg (x : Reg) (y : Reg) : Statement (.shlReg x y) :=
  wordWellFormed_of_row ⟨0xF00F, 0x800E⟩ (by decide) (formXYN_and_opN _ _ _ _)

theorem sneReg (x : Reg) (y : Reg) : Statement (.sneReg x y) :=
  wordWellFormed_of_row ⟨0xF00F, 0x9000⟩ (by decide) (formXYN_and_opN _ _ _ _)

theorem ldI (nnn : Imm12) : Statement (.ldI nnn) :=
  wordWellFormed_of_row ⟨0xF000, 0xA000⟩ (by decide) (formNNN_and_op _ _)

theorem jpV0 (nnn : Imm12) : Statement (.jpV0 nnn) :=
  wordWellFormed_of_row ⟨0xF000, 0xB000⟩ (by decide) (formNNN_and_op _ _)

theorem rnd (x : Reg) (kk : Byte) : Statement (.rnd x kk) :=
  wordWellFormed_of_row ⟨0xF000, 0xC000⟩ (by decide) (formXKK_and_op _ _ _)

theorem drw (x : Reg) (y : Reg) (n : Fin 16) : Statement (.drw x y n) :=
  wordWellFormed_of_row ⟨0xF000, 0xD000⟩ (by decide) (formXYN_and_op _ _ _ _)

theorem skp (x : Reg) : Statement (.skp x) :=
  wordWellFormed_of_row ⟨0xF0FF, 0xE09E⟩ (by decide) (formXKK_and_opKK _ _ _)

theorem sknp (x : Reg) : Statement (.sknp x) :=
  wordWellFormed_of_row ⟨0xF0FF, 0xE0A1⟩ (by decide) (formXKK_and_opKK _ _ _)

theorem ldVxDt (x : Reg) : Statement (.ldVxDt x) :=
  wordWellFormed_of_row ⟨0xF0FF, 0xF007⟩ (by decide) (formXKK_and_opKK _ _ _)

theorem ldVxKey (x : Reg) : Statement (.ldVxKey x) :=
  wordWellFormed_of_row ⟨0xF0FF, 0xF00A⟩ (by decide) (formXKK_and_opKK _ _ _)

theorem ldDtVx (x : Reg) : Statement (.ldDtVx x) :=
  wordWellFormed_of_row ⟨0xF0FF, 0xF015⟩ (by decide) (formXKK_and_opKK _ _ _)

theorem ldStVx (x : Reg) : Statement (.ldStVx x) :=
  wordWellFormed_of_row ⟨0xF0FF, 0xF018⟩ (by decide) (formXKK_and_opKK _ _ _)

theorem addI (x : Reg) : Statement (.addI x) :=
  wordWellFormed_of_row ⟨0xF0FF, 0xF01E⟩ (by decide) (formXKK_and_opKK _ _ _)

theorem ldFont (x : Reg) : Statement (.ldFont x) :=
  wordWellFormed_of_row ⟨0xF0FF, 0xF029⟩ (by decide) (formXKK_and_opKK _ _ _)

theorem ldBcd (x : Reg) : Statement (.ldBcd x) :=
  wordWellFormed_of_row ⟨0xF0FF, 0xF033⟩ (by decide) (formXKK_and_opKK _ _ _)

theorem ldMemVx (x : Reg) : Statement (.ldMemVx x) :=
  wordWellFormed_of_row ⟨0xF0FF, 0xF055⟩ (by decide) (formXKK_and_opKK _ _ _)

theorem ldVxMem (x : Reg) : Statement (.ldVxMem x) :=
  wordWellFormed_of_row ⟨0xF0FF, 0xF065⟩ (by decide) (formXKK_and_opKK _ _ _)

end Sys2Proof.Laws.TableRow
end

