-- ==== Sys2Proof/Laws/Sprite.lean ====
section
/-!
SUPPORT. What a draw leaves, said without its loops: a cell is toggled exactly when the sprite has a 1 bit
over it, and there is a hit exactly when such a cell was lit before (R172, R173 (f)).
-/

namespace Sys2Proof.Machine

/-- The distance from `a` forward to `b` on a ring of `n` cells. -/
def ringDist (n a b : Nat) : Nat := (b + (n - a % n)) % n

/-- Whether a sprite of `n` rows at `I`, placed at `(vx, vy)`, has a 1 bit over the cell in row `r` and
column `c` (R172, R173 (b), (f)): the cell lies fewer than `n` rows below and fewer than 8 columns
right of the start, each on its ring, and the bit there, counted from the most significant, is 1. -/
def State.spriteBit (s : State) (vx vy : Byte) (n : Nat) (r : Fin 32) (c : Fin 64) : Bool :=
  decide (ringDist 32 vy.toNat r.val < n) && decide (ringDist 64 vx.toNat c.val < 8) &&
    (s.memRead (s.dataAddr (ringDist 32 vy.toNat r.val))).getLsbD (7 - ringDist 64 vx.toNat c.val)

/-- Framebuffers that agree on every cell are equal. -/
theorem Framebuffer.ext_pixel {a b : Framebuffer} (h : ∀ r c, a.pixel r c = b.pixel r c) : a = b :=
  Vector.ext fun r hr => Vector.ext fun c hc => h ⟨r, hr⟩ ⟨c, hc⟩

@[simp] theorem Framebuffer.pixel_dark (r : Fin 32) (c : Fin 64) :
    Framebuffer.pixel darkScreen r c = false := by
  simp [Framebuffer.pixel, darkScreen]

theorem Framebuffer.pixel_toggle (fb : Framebuffer) (r r' : Fin 32) (c c' : Fin 64) :
    (fb.toggle r c).pixel r' c' = (fb.pixel r' c' ^^ decide (r' = r ∧ c' = c)) := by
  simp only [Framebuffer.pixel, Framebuffer.toggle, Vector.getElem_set, Fin.ext_iff]
  by_cases hr : r.val = r'.val
  · simp only [hr, ↓reduceIte, Vector.getElem_set, true_and]
    by_cases hc : c.val = c'.val
    · simp [hc]
    · simp [hc, eq_comm]
  · simp [hr, eq_comm]

/-- On a ring of `n` cells, `b` is `k` steps forward of `a` exactly when `ringDist` says so. -/
theorem ringDist_eq_iff {n a b k : Nat} (hn : 0 < n) (hb : b < n) (hk : k < n) :
    ringDist n a b = k ↔ b = (a + k) % n := by
  have ha := Nat.mod_lt a hn
  unfold ringDist
  rw [Nat.add_mod a k n, Nat.mod_eq_of_lt hk]
  generalize a % n = m at ha
  have wrap : ∀ x, x < n + n → x % n = if x < n then x else x - n := fun x hx => by
    split
    · next h => exact Nat.mod_eq_of_lt h
    · next h => rw [Nat.mod_eq_sub_mod (by omega), Nat.mod_eq_of_lt (by omega)]
  rw [wrap _ (by omega), wrap _ (by omega)]
  split <;> split <;> omega

theorem pixelCol_eq_iff (vx : Byte) {k : Nat} (hk : k < 64) (c : Fin 64) :
    c = pixelCol vx k ↔ ringDist 64 vx.toNat c.val = k := by
  rw [ringDist_eq_iff (by omega) c.isLt hk, Fin.ext_iff]; rfl

theorem pixelRow_eq_iff (vy : Byte) {k : Nat} (hk : k < 32) (r : Fin 32) :
    r = pixelRow vy k ↔ ringDist 32 vy.toNat r.val = k := by
  rw [ringDist_eq_iff (by omega) r.isLt hk, Fin.ext_iff]; rfl

/-- The cells of row `r` that the first `k` pixels of the row byte `b` toggle. -/
def rowBit (b : Byte) (vx : Byte) (k : Nat) (c : Fin 64) : Bool :=
  decide (ringDist 64 vx.toNat c.val < k) && b.getLsbD (7 - ringDist 64 vx.toNat c.val)

theorem rowBit_succ (b vx : Byte) {k : Nat} (hk : k < 64) (c : Fin 64) :
    rowBit b vx (k + 1) c =
      (rowBit b vx k c ^^ (b.getLsbD (7 - k) && decide (c = pixelCol vx k))) := by
  simp only [rowBit, pixelCol_eq_iff vx hk c]
  by_cases h : ringDist 64 vx.toNat c.val = k
  · simp [h]
  · have : ringDist 64 vx.toNat c.val < k + 1 ↔ ringDist 64 vx.toNat c.val < k := by omega
    simp [h, this]

theorem Canvas.plot_pixel (d : Canvas) (bit : Bool) (r r' : Fin 32) (c c' : Fin 64) :
    (d.plot bit r c).fb.pixel r' c' =
      (d.fb.pixel r' c' ^^ (bit && decide (r' = r ∧ c' = c))) := by
  unfold Canvas.plot
  split <;> simp_all [Framebuffer.pixel_toggle]

theorem Canvas.plot_hit (d : Canvas) (bit : Bool) (r : Fin 32) (c : Fin 64) :
    (d.plot bit r c).hit = (d.hit || (bit && d.fb.pixel r c)) := by
  unfold Canvas.plot
  split <;> simp_all

/-- The cells a row of a sprite leaves (R172). -/
theorem Canvas.plotRow_pixel (d : Canvas) (b : Byte) (r : Fin 32) (vx : Byte) (k : Nat)
    (hk : k ≤ 8) (r' : Fin 32) (c : Fin 64) :
    (d.plotRow b r vx k).fb.pixel r' c =
      (d.fb.pixel r' c ^^ (decide (r' = r) && rowBit b vx k c)) := by
  induction k with
  | zero => simp [Canvas.plotRow, rowBit]
  | succ k ih =>
    rw [Canvas.plotRow, Canvas.plot_pixel, ih (by omega), rowBit_succ b vx (by omega) c]
    by_cases h : r' = r <;> simp [h]

/-- The hit a row of a sprite reports (R172). -/
theorem Canvas.plotRow_hit (d : Canvas) (b : Byte) (r : Fin 32) (vx : Byte) (k : Nat)
    (hk : k ≤ 8) :
    (d.plotRow b r vx k).hit = true ↔
      d.hit = true ∨ ∃ c, rowBit b vx k c = true ∧ d.fb.pixel r c = true := by
  induction k with
  | zero => simp [Canvas.plotRow, rowBit]
  | succ k ih =>
    have hcol : ringDist 64 vx.toNat (pixelCol vx k).val = k :=
      (pixelCol_eq_iff vx (by omega) _).mp rfl
    have hnew : rowBit b vx k (pixelCol vx k) = false := by simp [rowBit, hcol]
    rw [Canvas.plotRow, Canvas.plot_hit, Bool.or_eq_true, ih (by omega), Bool.and_eq_true,
      Canvas.plotRow_pixel _ _ _ _ _ (by omega), hnew]
    simp only [Bool.and_false, Bool.xor_false, or_assoc]
    refine or_congr_right ⟨?_, ?_⟩
    · rintro (⟨c, hc, hp⟩ | ⟨hb, hp⟩)
      · refine ⟨c, ?_, hp⟩
        have : c ≠ pixelCol vx k := fun h => by simp [h, hnew] at hc
        rw [rowBit_succ b vx (by omega)]; simp [hc, this]
      · exact ⟨_, by rw [rowBit_succ b vx (by omega)]; simp [hb, hnew], hp⟩
    · rintro ⟨c, hc, hp⟩
      rw [rowBit_succ b vx (by omega)] at hc
      by_cases h : c = pixelCol vx k
      · subst h; exact .inr ⟨by simpa [hnew] using hc, hp⟩
      · exact .inl ⟨c, by simpa [h] using hc, hp⟩

theorem State.spriteBit_succ (s : State) (vx vy : Byte) {n : Nat} (hn : n < 32) (r : Fin 32)
    (c : Fin 64) :
    s.spriteBit vx vy (n + 1) r c =
      (s.spriteBit vx vy n r c ^^
        (decide (r = pixelRow vy n) && rowBit (s.memRead (s.dataAddr n)) vx 8 c)) := by
  simp only [State.spriteBit, rowBit, pixelRow_eq_iff vy hn r]
  by_cases h : ringDist 32 vy.toNat r.val = n
  · simp [h]
  · have : ringDist 32 vy.toNat r.val < n + 1 ↔ ringDist 32 vy.toNat r.val < n := by omega
    simp [h, this]

/-- The cells a draw leaves: each one toggled exactly when the sprite has a 1 bit over it (R172). -/
theorem State.drawSprite_pixel (s : State) (vx vy : Byte) (n : Nat) (hn : n ≤ 32) (r : Fin 32)
    (c : Fin 64) :
    (s.drawSprite vx vy n).fb.pixel r c = (s.fb.pixel r c ^^ s.spriteBit vx vy n r c) := by
  induction n with
  | zero => simp [State.drawSprite, State.spriteBit]
  | succ n ih =>
    rw [State.drawSprite, Canvas.plotRow_pixel _ _ _ _ _ (by omega), ih (by omega),
      State.spriteBit_succ s vx vy (by omega), Bool.xor_assoc]

/-- The hit a draw reports: some cell under a 1 bit was lit before it (R172, R175). -/
theorem State.drawSprite_hit (s : State) (vx vy : Byte) (n : Nat) (hn : n ≤ 32) :
    (s.drawSprite vx vy n).hit = true ↔
      ∃ r c, s.spriteBit vx vy n r c = true ∧ s.fb.pixel r c = true := by
  induction n with
  | zero => simp [State.drawSprite, State.spriteBit]
  | succ n ih =>
    have hrow : ringDist 32 vy.toNat (pixelRow vy n).val = n :=
      (pixelRow_eq_iff vy (by omega) _).mp rfl
    have hnew : ∀ c, s.spriteBit vx vy n (pixelRow vy n) c = false := fun c => by
      simp [State.spriteBit, hrow]
    rw [State.drawSprite, Canvas.plotRow_hit _ _ _ _ _ (by omega), ih (by omega)]
    simp only [State.drawSprite_pixel s vx vy n (by omega), hnew, Bool.xor_false]
    constructor
    · rintro (⟨r, c, hb, hp⟩ | ⟨c, hb, hp⟩)
      · refine ⟨r, c, ?_, hp⟩
        have : r ≠ pixelRow vy n := fun h => by simp [h, hnew] at hb
        rw [State.spriteBit_succ s vx vy (by omega)]; simp [hb, this]
      · exact ⟨_, c, by rw [State.spriteBit_succ s vx vy (by omega)]; simp [hb, hnew], hp⟩
    · rintro ⟨r, c, hb, hp⟩
      rw [State.spriteBit_succ s vx vy (by omega)] at hb
      by_cases h : r = pixelRow vy n
      · subst h; exact .inr ⟨c, by simpa [hnew] using hb, hp⟩
      · exact .inl ⟨r, c, by simpa [h] using hb, hp⟩

/-- The two ways of saying that the sprite has a 1 bit over a cell agree (R172, R173 (b)). -/
theorem State.spriteBit_iff_underBit (s : State) (vx vy : Byte) (n : Nat) (hn : n ≤ 32) (r : Fin 32)
    (c : Fin 64) : s.spriteBit vx vy n r c = true ↔ s.underBit vx vy n r c := by
  simp only [State.spriteBit, State.underBit, Bool.and_eq_true, decide_eq_true_eq]
  constructor
  · rintro ⟨⟨hr, hc⟩, hb⟩
    exact ⟨_, _, hr, hc, hb, (ringDist_eq_iff (by omega) r.isLt (by omega)).mp rfl,
      (ringDist_eq_iff (by omega) c.isLt (by omega)).mp rfl⟩
  · rintro ⟨j, k, hj, hk, hb, hr, hc⟩
    rw [(ringDist_eq_iff (by omega) r.isLt (by omega)).mpr hr,
      (ringDist_eq_iff (by omega) c.isLt (by omega)).mpr hc]
    exact ⟨⟨hj, hk⟩, hb⟩

end Sys2Proof.Machine
end

