-- ==== Sys2Proof/Tests/Slice0.lean ====
section
/-!
SUPPORT. Tests and witnesses.  Expected results are the spec's own: the vectors T<n> and examples S<n> of
spec/95_test_vectors.md, or the rule named.  Words are written out from R61 and R64.
-/

namespace Sys2Proof.Tests

open Sys2Proof.Machine

/-! ### Helpers -/

/-- The reset state with some registers set. -/
def regs (l : List (Reg × Byte)) : State := l.foldl (fun s p => s.setReg p.1 p.2) State.reset

/-- The reset state with some registers set and `I` at `a`. -/
def regsAt (l : List (Reg × Byte)) (a : Word) : State := (regs l).setI a

/-- The state after one step with the word `w` placed at `pc`; the state itself on a fault. -/
def ran (w : Nat) (s : State) : State := (stepEvent (s.withFetchWord 16 w)).1

/-- The fault of one step with the word `w` placed at `pc`. -/
def faultOf (w : Nat) (s : State) : Option Fault := (stepEvent (s.withFetchWord 16 w)).2

/-- The state with keys latched. -/
def keys (l : List Key) (s : State) : State := l.foldl (fun s k => setKey k s) s

/-- The state with one cell lit. -/
def lit (r : Fin 32) (c : Fin 64) (s : State) : State := s.setFb (s.fb.toggle r c)

/-! ### Well-formedness: one ill-formed word for each check (R67), the near misses of T2 to T13 -/

theorem test_illFormed_0nnn : wordWellFormed 0x0000 = false ∧ wordWellFormed 0x0123 = false ∧
    wordWellFormed 0x00E1 = false := by decide
theorem test_illFormed_5xyn : wordWellFormed 0x5121 = false := by decide
theorem test_illFormed_8xyn : wordWellFormed 0x8008 = false ∧ wordWellFormed 0x800F = false := by
  decide
theorem test_illFormed_9xyn : wordWellFormed 0x9001 = false := by decide
theorem test_illFormed_Exkk : wordWellFormed 0xE09F = false ∧ wordWellFormed 0xE0A0 = false := by
  decide
theorem test_illFormed_Fxkk : wordWellFormed 0xF000 = false ∧ wordWellFormed 0xF056 = false ∧
    wordWellFormed 0xFFFF = false := by decide
theorem test_wellFormed_words : wordWellFormed 0x00E0 = true ∧ wordWellFormed 0x5120 = true ∧
    wordWellFormed 0x812E = true ∧ wordWellFormed 0xE59E = true ∧ wordWellFormed 0xF965 = true := by
  decide

/-! ### Decoding: every constructor, its word written bit by bit (R62, R64) -/

theorem test_decode_fixed : decode 0b0000000011100000 = .ok .cls ∧
    decode 0b0000000011101110 = .ok .ret := by decide
theorem test_decode_nnn : decode 0b0001001000000100 = .ok (.jp 0x204) ∧
    decode 0b0010001000001010 = .ok (.call 0x20A) ∧
    decode 0b1010001100000000 = .ok (.ldI 0x300) ∧
    decode 0b1011111111111111 = .ok (.jpV0 0xFFF) := by decide
theorem test_decode_xkk : decode 0b0011000100000000 = .ok (.seImm 1 0x00) ∧
    decode 0b0100001100010001 = .ok (.sneImm 3 0x11) ∧
    decode 0b0110101001000010 = .ok (.ldImm 10 0x42) ∧
    decode 0b0111000111111111 = .ok (.addImm 1 0xFF) ∧
    decode 0b1100000100001111 = .ok (.rnd 1 0x0F) := by decide
theorem test_decode_xy : decode 0b0101001000110000 = .ok (.seReg 2 3) ∧
    decode 0b1001001000110000 = .ok (.sneReg 2 3) ∧
    decode 0b1000101011110000 = .ok (.ldReg 10 15) ∧
    decode 0b1000101010110001 = .ok (.orReg 10 11) ∧
    decode 0b1000101010110010 = .ok (.andReg 10 11) ∧
    decode 0b1000101010110011 = .ok (.xorReg 10 11) := by decide
theorem test_decode_xy_flag : decode 0b1000000000010100 = .ok (.addReg 0 1) ∧
    decode 0b1000000000010101 = .ok (.subReg 0 1) ∧
    decode 0b1000000000010110 = .ok (.shrReg 0 1) ∧
    decode 0b1000101010110111 = .ok (.subnReg 10 11) ∧
    decode 0b1000000000011110 = .ok (.shlReg 0 1) := by decide
theorem test_decode_xyn : decode 0b1101000100101010 = .ok (.drw 1 2 10) := by decide
theorem test_decode_x_key : decode 0b1110000110011110 = .ok (.skp 1) ∧
    decode 0b1110000110100001 = .ok (.sknp 1) ∧ decode 0b1111000100001010 = .ok (.ldVxKey 1) := by
  decide
theorem test_decode_x_timer : decode 0b1111001000000111 = .ok (.ldVxDt 2) ∧
    decode 0b1111000100010101 = .ok (.ldDtVx 1) ∧ decode 0b1111010000011000 = .ok (.ldStVx 4) := by
  decide
theorem test_decode_x_mem : decode 0b1111100100011110 = .ok (.addI 9) ∧
    decode 0b1111001100101001 = .ok (.ldFont 3) ∧ decode 0b1111000000110011 = .ok (.ldBcd 0) ∧
    decode 0b1111000101010101 = .ok (.ldMemVx 1) ∧ decode 0b1111001001100101 = .ok (.ldVxMem 2) := by
  decide
theorem test_decode_bytes : decodeBytes [0x80, 0x14, 0xAB] = .ok (.addReg 0 1, [0xAB]) ∧
    decodeBytes [0x80] = .error .truncated := by decide
theorem test_decode_tableWord : decodeTableWord 16 0xD12A = some (.drw 1 2 10) ∧
    decodeTableWord 16 0x8008 = none := by decide

/-! ### The step: faults, wrap of `pc`, key clear -/

/-- T2: zeroed memory faults, and the latch is not cleared (T140). -/
theorem test_unknown_fault : faultOf 0x0000 (keys [2] State.reset) = some .unknownOpCode ∧
    (ran 0x0000 (keys [2] State.reset)).keyDown 2 = true := by decide
/-- T22 and T23. -/
theorem test_stack_faults : faultOf 0x00EE State.reset = some .stackUnderflow ∧
    faultOf 0x2400 { State.reset with sp := 16 } = some .stackOverflow := by decide
/-- The codes of R210. -/
theorem test_fault_codes : faultCode none = 0 ∧ faultCode (some .stackUnderflow) = 1 ∧
    faultCode (some .stackOverflow) = 2 ∧ faultCode (some .unknownOpCode) = 3 := by decide
/-- T15 and T17: `pc` wraps at 65536, and a `pc` above 0x0FFF fetches from `pc mod 4096`. -/
theorem test_pc_wraps : (ran 0x6101 (State.reset.setPc 0xFFFE)).pc = 0x0000 ∧
    (ran 0x7105 ((regs [(1, 1)]).setPc 0x1200)).reg 1 = 0x06 := by decide
/-- T16: an odd `pc`. -/
theorem test_odd_pc : (ran 0x6207 (State.reset.setPc 0x0301)).pc = 0x0303 := by decide
/-- T19: a completed step empties the latch. -/
theorem test_step_clears_keys : (ran 0x1200 (keys [5] State.reset)).keyDown 5 = false := by decide

/-! ### Control transfer -/

theorem test_jp : (ran 0x1204 (State.reset.setPc 0x20A)).pc = 0x0204 := by decide -- T18
theorem test_call : (ran 0x220A (State.reset.setPc 0x204)).pc = 0x020A ∧
    (ran 0x220A (State.reset.setPc 0x204)).stack[0] = 0x0204 := by decide -- T20
theorem test_call_last : (ran 0x2400 { State.reset with pc := 0x300, sp := 15 }).sp = 16 ∧
    (ran 0x2400 { State.reset with pc := 0x300, sp := 15 }).stack[15] = 0x0300 := by decide -- T24
theorem test_ret : (ran 0x00EE { State.reset with
      pc := 0x20A, sp := 1, stack := State.reset.stack.set 0 0x0204 }).pc = 0x0206 := by decide -- T21
theorem test_ret_wraps : (ran 0x00EE { State.reset with
      pc := 0x300, sp := 1, stack := State.reset.stack.set 0 0xFFFE }).pc = 0x0000 := by
  decide -- T25
theorem test_seImm : (ran 0x3100 (State.reset.setPc 0x208)).pc = 0x020C ∧
    (ran 0x3100 ((regs [(1, 4)]).setPc 0x208)).pc = 0x020A := by decide -- T26, T27
theorem test_sneImm : (ran 0x4310 (regs [(3, 0x10)])).pc = 0x0202 ∧
    (ran 0x4311 (regs [(3, 0x10)])).pc = 0x0204 := by decide -- T28, T29
theorem test_seReg : (ran 0x5230 (regs [(2, 7), (3, 7)])).pc = 0x0204 ∧
    (ran 0x5230 (regs [(2, 7), (3, 8)])).pc = 0x0202 := by decide -- T30, T31
theorem test_sneReg : (ran 0x9230 (regs [(2, 7), (3, 8)])).pc = 0x0204 ∧
    (ran 0x9440 (regs [(4, 0x33)])).pc = 0x0202 := by decide -- T33, T35
theorem test_jpV0 : (ran 0xBFFF (regs [(0, 0xFF)])).pc = 0x10FE := by decide -- T37

/-! ### Register load and arithmetic-logic -/

theorem test_ldImm : (ran 0x6A42 State.reset).reg 10 = 0x42 := by decide -- T39
theorem test_addImm : (ran 0x71FF (regs [(1, 5), (15, 1)])).reg 1 = 0x04 ∧
    (ran 0x71FF (regs [(1, 5), (15, 1)])).reg 15 = 0x01 := by decide -- T41
theorem test_ldReg : (ran 0x8AF0 (regs [(15, 1)])).reg 10 = 0x01 := by decide -- T44
theorem test_or : (ran 0x8011 (regs [(0, 0x0F), (1, 0xF0), (15, 1)])).reg 0 = 0xFF ∧
    (ran 0x8011 (regs [(0, 0x0F), (1, 0xF0), (15, 1)])).reg 15 = 0x01 := by decide -- T45
theorem test_and : (ran 0x8012 (regs [(0, 0x3C), (1, 0x0F)])).reg 0 = 0x0C := by decide -- T46
theorem test_xor : (ran 0x8013 (regs [(0, 0xFF), (1, 0x0F)])).reg 0 = 0xF0 := by decide -- T47
theorem test_add_carry : (ran 0x8014 (regs [(0, 0xFF), (1, 1)])).reg 0 = 0x00 ∧
    (ran 0x8014 (regs [(0, 0xFF), (1, 1)])).reg 15 = 0x01 := by decide -- T49, S3
theorem test_add_VF : (ran 0x8F14 (regs [(15, 0x90), (1, 0x80)])).reg 15 = 0x10 ∧
    (ran 0x80F4 (regs [(0, 0xFF), (15, 1)])).reg 0 = 0x00 := by decide -- T52, T53
theorem test_sub_borrow : (ran 0x8015 (regs [(0, 3), (1, 5), (15, 1)])).reg 0 = 0xFE ∧
    (ran 0x8015 (regs [(0, 3), (1, 5), (15, 1)])).reg 15 = 0x00 := by decide -- T56
theorem test_sub_equal : (ran 0x8015 (regs [(0, 7), (1, 7)])).reg 15 = 0x01 ∧
    (ran 0x8F15 (regs [(15, 5), (1, 7)])).reg 15 = 0xFE := by decide -- T57, T59
theorem test_subn : (ran 0x8017 (regs [(0, 3), (1, 5)])).reg 0 = 0x02 ∧
    (ran 0x8017 (regs [(0, 3), (1, 5)])).reg 15 = 0x01 := by decide -- T62
theorem test_subn_VF : (ran 0x8F17 (regs [(15, 5), (1, 7)])).reg 15 = 0x02 ∧
    (ran 0x80F7 (regs [(0, 3), (15, 5)])).reg 0 = 0x02 := by decide -- T65, T66

/-- T68 and T75: SHR under either setting of `SHIFT_SRC`. -/
theorem test_shr (s : State) (h : s = regs [(0, 5), (1, 8)]) :
    (Params.shiftSrc = .vx → ∃ t, exec (.shrReg 0 1) s = .next t ∧ t.reg 0 = 2 ∧ t.reg 15 = 1) ∧
    (Params.shiftSrc = .vy → ∃ t, exec (.shrReg 0 1) s = .next t ∧ t.reg 0 = 4 ∧ t.reg 15 = 0) := by
  subst h
  constructor <;> intro h <;> refine ⟨_, rfl, ?_⟩ <;> simp only [State.shiftOperand, h] <;> decide
/-- T72 and T79: SHL under either setting of `SHIFT_SRC`. -/
theorem test_shl (s : State) (h : s = regs [(0, 0x81), (1, 0x40)]) :
    (Params.shiftSrc = .vx → ∃ t, exec (.shlReg 0 1) s = .next t ∧ t.reg 0 = 2 ∧ t.reg 15 = 1) ∧
    (Params.shiftSrc = .vy → ∃ t, exec (.shlReg 0 1) s = .next t ∧ t.reg 0 = 0x80 ∧ t.reg 15 = 0) := by
  subst h
  constructor <;> intro h <;> refine ⟨_, rfl, ?_⟩ <;> simp only [State.shiftOperand, h] <;> decide

/-! ### Address register and memory -/

theorem test_ldI : (ran 0xA300 (State.reset.setI 0xFFFF)).i = 0x0300 := by decide -- T82
theorem test_addI : (ran 0xF21E (regsAt [(2, 5)] 0x0FFE)).i = 0x1003 ∧
    (ran 0xF21E (regsAt [(2, 2)] 0xFFFF)).i = 0x0001 := by decide -- T84, T85
theorem test_ldFont : (ran 0xF329 (regs [(3, 0x0A)])).i = 0x0032 ∧
    (ran 0xF329 (regs [(3, 0xFF)])).i = 0x004B := by decide -- T87, T88
theorem test_bcd : (ran 0xF033 (regsAt [(0, 0xEA)] 0x300)).mem =
    [(0x200, 0xF0), (0x201, 0x33), (0x300, 2), (0x301, 3), (0x302, 4)] := by decide -- T90
theorem test_store : (ran 0xF155 (regsAt [(0, 0x6A), (1, 0x42), (2, 0x99)] 0x208)).mem =
    [(0x200, 0xF1), (0x201, 0x55), (0x208, 0x6A), (0x209, 0x42)] := by decide -- T95
/-- T98: the address is reduced mod 4096, so this store reaches the font. -/
theorem test_store_wraps : ∃ t, exec (.ldMemVx 0) (regsAt [(0, 0xAB)] 0x1003) = .next t ∧
    t.mem.read 3 = 0xAB ∧ t.i = 0x1003 := by
  refine ⟨_, rfl, ?_, rfl⟩
  exact Memory.read_write_same _ _ _
/-- T100. -/
theorem test_load (s : State)
    (h : s = (((regsAt [(3, 0x77)] 0x300).memWrite 0x300 2).memWrite 0x301 3).memWrite 0x302 4) :
    (ran 0xF265 s).reg 0 = 2 ∧ (ran 0xF265 s).reg 2 = 4 ∧ (ran 0xF265 s).reg 3 = 0x77 := by
  subst h; decide
/-- R23, R146: glyph 0 is read from the font, whatever its bytes are. -/
theorem test_load_font : (ran 0xF465 State.reset).reg 4 = Params.font 4 := rfl

/-! ### Random -/

/-- R163, T105, T106: the simulation default. -/
theorem test_lcg : lcgNext 32 1664525 1013904223 0x12345678 = 0x75432777 ∧
    lcgByte 24 0x75432777 = 0x75 ∧ lcgNext 32 1664525 1013904223 0x75432777 = 0xCD305E6A ∧
    lcgByte 24 0xCD305E6A &&& 0x0F = 0x0D := by decide
/-- T107, T109: `kk = 0` still advances the generator, and 6xkk does not. -/
theorem test_rnd_advances : (ran 0xC200 State.reset).rng = State.reset.advanceRng.rng ∧
    (ran 0x6000 State.reset).rng = State.reset.rng := ⟨rfl, rfl⟩

/-! ### Display -/

/-- The two sprite rows C0 C0 of T113 at 0x300, drawn from column 62 and row 31. -/
def cornerSprite : State :=
  ((regsAt [(0, 62), (1, 31)] 0x300).memWrite 0x300 0xC0).memWrite 0x301 0xC0

theorem test_cls : (ran 0x00E0 (lit 31 63 (regs [(15, 1)]))).fb.pixel 31 63 = false ∧
    (ran 0x00E0 (lit 31 63 (regs [(15, 1)]))).reg 15 = 1 := by decide -- T111
theorem test_drw_wraps : (ran 0xD012 cornerSprite).fb.pixel 0 62 = true ∧
    (ran 0xD012 cornerSprite).fb.pixel 31 63 = true ∧
    (ran 0xD012 cornerSprite).fb.pixel 0 0 = false ∧ (ran 0xD012 cornerSprite).reg 15 = 0 := by
  decide -- T113
/-- T117: one cell lit before, one dark; T119: a lit cell under a 0 bit is no collision. -/
theorem test_drw_collision (s : State)
    (h : s = lit 0 0 ((regsAt [] 0x300).memWrite 0x300 0xC0)) :
    (ran 0xD001 s).reg 15 = 1 ∧ (ran 0xD001 s).fb.pixel 0 0 = false ∧
    (ran 0xD001 s).fb.pixel 0 1 = true ∧
    (ran 0xD001 (lit 0 1 ((regsAt [(15, 1)] 0x300).memWrite 0x300 0x80))).reg 15 = 0 := by
  subst h; decide
/-- T120 and T123: zero rows clear `VF`; a coordinate in `VF` is read before it is written. -/
theorem test_drw_corners :
    (ran 0xD010 (lit 5 5 ((regsAt [(15, 1)] 0x300).memWrite 0x300 0xFF))).reg 15 = 0 ∧
    (ran 0xDF11 ((regsAt [(15, 5), (1, 2)] 0x300).memWrite 0x300 0x80)).fb.pixel 2 5 = true := by
  decide

/-! ### Keypad and timers -/

theorem test_skp : (ran 0xE19E (keys [3] ((regs [(1, 0x13)])))).pc = 0x0204 ∧
    (ran 0xE19E (keys [4] (regs [(1, 3)]))).pc = 0x0202 := by decide -- T130, T129
theorem test_sknp : (ran 0xE1A1 (regs [(1, 3)])).pc = 0x0204 ∧
    (ran 0xE1A1 (keys [3] (regs [(1, 3)]))).pc = 0x0202 := by decide -- T131, T132
theorem test_key_wait : (ran 0xF10A (regs [(1, 9)])).pc = 0x0200 ∧
    (ran 0xF10A (regs [(1, 9)])).reg 1 = 9 := by decide -- T133
theorem test_key_least : (ran 0xF10A (keys [7, 3] State.reset)).reg 1 = 3 ∧
    (ran 0xF10A (keys [7, 3] State.reset)).keyDown 7 = false := by decide -- T134
theorem test_ldVxDt : (ran 0xF207 (State.reset.setDt 2)).reg 2 = 2 := by decide -- T142
theorem test_ldDtVx : (ran 0xF115 (regs [(1, 3)])).dt = 3 := by decide -- T143
theorem test_ldStVx : (ran 0xF418 (regs [(4, 30)])).st = 30 ∧
    (ran 0xF418 (regs [(4, 30)])).soundActive = true := by decide -- T145
theorem test_step_moves_no_timer : (ran 0x6000 ((State.reset.setDt 9).setSt 9)).dt = 9 ∧
    (ran 0x6000 ((State.reset.setDt 9).setSt 9)).st = 9 := by decide -- T146

/-! ### Driver events -/

theorem test_tick : (timerTick ((State.reset.setDt 255).setSt 3)).dt = 254 ∧
    (timerTick ((State.reset.setDt 255).setSt 3)).st = 2 ∧
    (timerTick State.reset).dt = 0 := by decide -- T149, T148
theorem test_setKey : (keys [3, 3, 10] State.reset).keyDown 10 = true ∧
    (keys [3, 3, 10] State.reset).keyDown 4 = false := by decide -- T141
/-- T152, T153: the load bound. -/
theorem test_load_bound (l m : List Byte) (hl : l.length = 3583) (hm : m.length = 3584) :
    (loadProgram l State.reset).isSome = true ∧ loadProgram m State.reset = none := by
  constructor
  · unfold loadProgram; rw [hl, if_neg (by decide)]; rfl
  · unfold loadProgram; rw [hm, if_pos (by decide)]
/-- The first step of P1 after a load: the first two bytes are the first instruction (R253). -/
theorem test_load_then_step : (applyEvents
    [.reset, .loadProgram [0x61, 0x05, 0x12, 0x00], .step] State.reset).reg 1 = 5 := by decide

/-! ### Witnesses: a state and operands that meet each statement's hypotheses -/

/-- A state whose next word is `6A42`, an instruction that completes. -/
def loadNext : State := State.reset.withFetchWord 16 0x6A42

theorem witness_inv_reset : State.reset.Inv := ⟨Memory.wf_nil, Params.rngSeed_lt⟩
theorem witness_EncodeAfterDecodeIsIdentity : decode 0x8014 = .ok (.addReg 0 1) := by decide
theorem witness_DecoderAgreesWithOpcodeTable :
    ∀ r ∈ opcodeTable, (0x0000 : Word) &&& r.mask ≠ r.pattern := by decide
theorem witness_OpcodeRowsAreDisjoint :
    (0x1234 : Word) &&& (opcodeTable[2]'(by decide)).mask = (opcodeTable[2]'(by decide)).pattern := by
  decide
theorem witness_StepRunsDecodedInstruction : decode loadNext.fetch = .ok (.ldImm 10 0x42) := by
  decide
theorem witness_UnknownWordFaultsAndChangesNothing : wordWellFormed State.reset.fetch = false := by
  decide
theorem witness_StackFaultsExactly :
    step (State.reset.withFetchWord 16 0x00EE) = .fault .stackUnderflow ∧
    step (State.withFetchWord { State.reset with sp := 16 } 16 0x2400) = .fault .stackOverflow :=
  ⟨rfl, rfl⟩
theorem witness_FaultIsFixedPointOfStep :
    stepEvent State.reset = (State.reset, some .unknownOpCode) := rfl
theorem witness_CompletedStepClearsKeyLatch :
    ∃ t, step (keys [3] loadNext) = .next t ∧ (keys [3] loadNext).keyDown 3 = true :=
  ⟨_, rfl, by decide⟩
theorem witness_StepMovesTimersOnlyByWrites : ∃ s t, decode s.fetch = .ok (.ldDtVx 1) ∧
    step s = .next t := ⟨(regs [(1, 3)]).withFetchWord 16 0xF115, _, by decide, rfl⟩
theorem witness_OnlyListedWritersChangeState :
    ∃ t, exec (.ldImm 10 0x42) State.reset = .next t ∧ mayWriteReg (.ldImm 10 0x42) 3 = false :=
  ⟨_, rfl, by decide⟩
theorem witness_GeneratorAdvancesOncePerRandom : Event.step ≠ .reset ∧
    (State.reset.withFetchWord 16 0xC0FF).fetch.extractLsb' 12 4 = 0xC := by decide
theorem witness_StepKeepsInvariant : ∃ t, loadNext.Inv ∧ step loadNext = .next t :=
  ⟨_, (witness_inv_reset.memWrite _ _).memWrite _ _, rfl⟩
theorem witness_EventsKeepInvariant : loadNext.Inv :=
  (witness_inv_reset.memWrite _ _).memWrite _ _
theorem witness_JumpSetsPc :
    (State.reset.withFetchWord 16 0x1204).fetch = (0x1#4 ++ 0x204#12 : Word) := by decide
theorem witness_SkipsOnRegisters : (1 : BitVec 4) ≠ 0 := by decide
theorem witness_CallPushesItsAddress : State.reset.sp = (0 : Fin 16).castSucc ∧
    ({ State.reset with sp := 15 } : State).sp = (15 : Fin 16).castSucc ∧
    ({ State.reset with sp := 16 } : State).sp = 16 := by decide
theorem witness_ReturnPopsAndAddsTwo : State.reset.sp = 0 ∧
    ({ State.reset with sp := 1 } : State).sp = (0 : Fin 16).succ ∧
    ({ State.reset with sp := 16 } : State).sp = (15 : Fin 16).succ := by decide
theorem witness_CallThenReturnComesBack : ∃ t u : State,
    exec (.call 0x20A) State.reset = .next t ∧ u.sp = t.sp ∧ u.stack = t.stack ∧ u.pc ≠ t.pc :=
  ⟨_, State.setPc (ran 0x220A State.reset) 0x20C, rfl, by decide, by decide, by decide⟩
theorem witness_AddSetsCarry : (0 : Reg) ≠ 15 ∧ (1 : Reg) ≠ 0 ∧ (1 : Reg) ≠ 15 := by decide
theorem witness_SubtractsSetNotBorrow : (0 : Reg) ≠ 15 ∧ (1 : Reg) ≠ 0 ∧ (1 : Reg) ≠ 15 := by decide
theorem witness_ShiftsSetBitShiftedOut : (0 : Reg) ≠ 15 ∧
    ∃ src : Byte, src = State.reset.reg (if Params.shiftSrc = .vx then 0 else 1) := ⟨by decide, _, rfl⟩
theorem witness_BcdStoresThreeDigits :
    ∀ k, k < 3 → (0x303 : Nat) ≠ memIndex ((regsAt [] 0x300).dataAddr k) := by
  intro k hk; interval_cases k <;> decide
theorem witness_BlockStoreWritesRegisters : (15 : Reg) ≤ 15 ∧
    ∀ k : Reg, k ≤ 15 → (0x310 : Nat) ≠ memIndex ((regsAt [] 0x300).dataAddr k.val) := by decide
theorem witness_BlockLoadReadsRegisters : (2 : Reg) ≤ 2 ∧ (2 : Reg) < 3 := by decide
theorem witness_StoreThenLoadRestores (s : State) (h : s = regsAt [(0, 0xDE), (1, 0xAD)] 0x300) :
    ∃ t u w, exec (.ldMemVx 1) s = .next t ∧ u.mem = t.mem ∧ u.i = s.i ∧ u.reg 0 ≠ s.reg 0 ∧
      exec (.ldVxMem 1) u = .next w ∧ (1 : Reg) ≤ 1 := by
  subst h
  exact ⟨_, (State.storeRegs (regsAt [(0, 0xDE), (1, 0xAD)] 0x300) 2).setReg 0 0, _, rfl, rfl, rfl,
    by decide, rfl, by decide⟩
theorem witness_MemoryReadAfterWrite :
    (0x1003 : Word).toNat % 4096 = (0x0003 : Word).toNat % 4096 ∧
    (0x0FFF : Word).toNat % 4096 ≠ (0x1000 : Word).toNat % 4096 := by decide
theorem witness_StoredWordIsFetchedNext : ∃ t, exec (.ldMemVx 1) (regsAt [] 0x202) = .next t ∧
    (0 : Reg).val + 1 = (1 : Reg).val ∧ (1 : Reg) ≤ 1 ∧
    memIndex ((regsAt [] 0x202).dataAddr 0) = memIndex t.pc := ⟨_, rfl, by decide, by decide, by decide⟩
theorem witness_RandomMasksNewByte : (3 : Reg) ≠ 0 := by decide
/-- A cell under a 1 bit that is lit, one that is not lit, and a cell under none. -/
theorem witness_DrawInvertsCellsUnderTheSprite :
    cornerSprite.underBit (cornerSprite.reg 0) (cornerSprite.reg 1) 2 31 62 ∧
    (lit 31 62 cornerSprite).fb.pixel 31 62 = true ∧
    ¬ cornerSprite.underBit (cornerSprite.reg 0) (cornerSprite.reg 1) 2 0 1 := by
  refine ⟨⟨0, 0, by decide, by decide, by decide, by decide, by decide⟩, by decide, ?_⟩
  rw [← State.spriteBit_iff_underBit _ _ _ _ (by omega)]; decide
theorem witness_DoubleDrawRestoresFramebuffer : ∃ t u w,
    exec (.drw 0 1 2) cornerSprite = .next t ∧ u.fb = t.fb ∧ u.mem = cornerSprite.mem ∧
    u.i = cornerSprite.i ∧ u.reg 0 = cornerSprite.reg 0 ∧ u.reg 1 = cornerSprite.reg 1 ∧
    exec (.drw 0 1 2) u = .next w := ⟨_, _, _, rfl, rfl, rfl, rfl, rfl, rfl, rfl⟩
theorem witness_KeySkipsTestOneKey : (3 : Key).val = ((regs [(1, 0x13)]).reg 1).toNat % 16 ∧
    decode ((regs [(1, 0x13)]).withFetchWord 16 0xE19E).fetch = .ok (.skp 1) ∧
    decode ((regs [(1, 0x13)]).withFetchWord 16 0xE1A1).fetch = .ok (.sknp 1) := by decide
theorem witness_KeyWaitHoldsOrTakesLeastKey : (∀ k : Key, State.reset.keyDown k = false) ∧
    (keys [7, 3] State.reset).keyDown 3 = true ∧
    ∀ j : Key, j < 3 → (keys [7, 3] State.reset).keyDown j = false := by decide
theorem witness_SoundTimerSetsBuzzer : ∃ t, exec (.ldStVx 4) (regs [(4, 30)]) = .next t := ⟨_, rfl⟩
theorem witness_SoundTimerIsSeenByNoInstruction : ∃ t, step loadNext = .next t := ⟨_, rfl⟩
/-- A return whose top entry agrees while a stale entry differs. -/
theorem witness_StackIsSeenOnlyByReturn (s : State)
    (h : s = State.withFetchWord { State.reset with sp := 1 } 16 0x00EE) :
    s.fetch = 0x00EE ∧ (∀ j : Fin 16, s.sp = j.succ → (s.stack.set 5 0x333)[j] = s.stack[j]) ∧
    s.stack.set 5 0x333 ≠ s.stack ∧ ∃ t, step s = .next t := by
  subst h; exact ⟨by decide, by decide, by decide, _, rfl⟩
theorem witness_TimerTickCountsDownToZero : 0 < (State.reset.setDt 1).dt.toNat ∧
    State.reset.dt = 0 ∧ 0 < (State.reset.setSt 1).st.toNat ∧ State.reset.st = 0 := by decide
theorem witness_SetKeyLatchesOneKey : (4 : Key) ≠ 3 := by decide
theorem witness_LoadProgramCopiesOrRefuses :
    0x200 + (List.replicate 3584 (0 : Byte)).length ≥ 4096 ∧
    0x200 + (List.replicate 3583 (0 : Byte)).length < 4096 := by
  rw [List.length_replicate, List.length_replicate]; decide
theorem witness_LogicOperationsBitByBit : (15 : Reg) ≠ 3 ∧ (0 : Reg) ≠ 3 := by decide
theorem witness_ResetLeavesTheListedValues : (80 : Nat) ≤ 0x200 := by decide

end Sys2Proof.Tests
end

section
/-!
PROOFS. The state (spec/10_state.md): the frame of every instruction (R26), the invariant of a step, and
what no instruction but the listed readers can see of `ST` and of the stack (R27).
-/

namespace Sys2Proof.Machine

variable {s t : State}

/-! ### What a completed instruction can have done, for the three that have a choice -/

theorem execRet_eq_next (h : execRet s = .next t) :
    ∃ a u, s.pop = some (a, u) ∧ t = u.setPc (a + 2) := by
  unfold execRet at h
  split at h
  · cases h
  · next a u hp => cases h; exact ⟨a, u, hp, rfl⟩

theorem execCall_eq_next {nnn : Imm12} (h : execCall nnn s = .next t) :
    ∃ u, s.push s.pc = some u ∧ t = u.setPc (zext16 nnn) := by
  unfold execCall at h
  split at h
  · cases h
  · next u hp => cases h; exact ⟨u, hp, rfl⟩

theorem execLdVxKey_eq_next {x : Reg} (h : execLdVxKey x s = .next t) :
    t = s ∨ ∃ b, t = (s.setReg x b).next := by
  unfold execLdVxKey at h
  split at h <;> cases h
  · exact .inl rfl
  · exact .inr ⟨_, rfl⟩

/-! ### The frame of every instruction (R26) -/

/-- The table of R26 read by instruction: `t` differs from `s` at most in `pc` and in the pieces of state
the instruction is listed as a writer of. -/
def ChangesOnlyListed (s t : State) : Instr → Prop
  | .jp _ | .seImm _ _ | .sneImm _ _ | .seReg _ _ | .sneReg _ _ | .jpV0 _ | .skp _ | .sknp _ =>
    t = { s with pc := t.pc }
  | .ldImm _ _ | .addImm _ _ | .ldReg _ _ | .orReg _ _ | .andReg _ _ | .xorReg _ _ | .addReg _ _
  | .subReg _ _ | .shrReg _ _ | .subnReg _ _ | .shlReg _ _ | .ldVxDt _ | .ldVxKey _ | .ldVxMem _ =>
    t = { s with pc := t.pc, v := t.v }
  | .rnd _ _ => t = { s with pc := t.pc, v := t.v, rng := t.rng }
  | .drw _ _ _ => t = { s with pc := t.pc, v := t.v, fb := t.fb }
  | .cls => t = { s with pc := t.pc, fb := t.fb }
  | .ret => t = { s with pc := t.pc, sp := t.sp }
  | .call _ => t = { s with pc := t.pc, sp := t.sp, stack := t.stack }
  | .ldI _ | .addI _ | .ldFont _ => t = { s with pc := t.pc, i := t.i }
  | .ldDtVx _ => t = { s with pc := t.pc, dt := t.dt }
  | .ldStVx _ => t = { s with pc := t.pc, st := t.st }
  | .ldBcd _ | .ldMemVx _ => t = { s with pc := t.pc, mem := t.mem }

/-- Every instruction that completes keeps to its row of R26. -/
theorem exec_changesOnlyListed {i : Instr} (h : exec i s = .next t) : ChangesOnlyListed s t i := by
  cases i with
  | ret =>
    obtain ⟨a, u, hp, rfl⟩ := execRet_eq_next h
    obtain ⟨-, -, -, hu⟩ := State.pop_eq_some s hp
    exact congrArg (·.setPc (a + 2)) hu
  | call nnn =>
    obtain ⟨u, hp, rfl⟩ := execCall_eq_next h
    obtain ⟨-, -, -, hu⟩ := State.push_eq_some s hp
    exact congrArg (·.setPc (zext16 nnn)) hu
  | ldVxKey x =>
    obtain rfl | ⟨b, rfl⟩ := execLdVxKey_eq_next h <;> rfl
  | ldMemVx x => cases h; rw [State.storeRegs_frame]; rfl
  | ldVxMem x => cases h; rw [State.loadRegs_frame]; rfl
  | _ => cases h; rfl

variable {i : Instr}

theorem exec_i (h : exec i s = .next t) (hldI : ∀ nnn, i ≠ .ldI nnn) (haddI : ∀ x, i ≠ .addI x)
    (hfont : ∀ x, i ≠ .ldFont x) : t.i = s.i := by
  cases i with
  | ldI nnn => exact absurd rfl (hldI nnn)
  | addI x => exact absurd rfl (haddI x)
  | ldFont x => exact absurd rfl (hfont x)
  | _ => exact (congrArg State.i (exec_changesOnlyListed h) :)

theorem exec_stack (h : exec i s = .next t) (hcall : ∀ nnn, i ≠ .call nnn) : t.stack = s.stack := by
  cases i with
  | call nnn => exact absurd rfl (hcall nnn)
  | _ => exact (congrArg State.stack (exec_changesOnlyListed h) :)

theorem exec_sp (h : exec i s = .next t) (hcall : ∀ nnn, i ≠ .call nnn) (hret : i ≠ .ret) :
    t.sp = s.sp := by
  cases i with
  | call nnn => exact absurd rfl (hcall nnn)
  | ret => exact absurd rfl hret
  | _ => exact (congrArg State.sp (exec_changesOnlyListed h) :)

theorem exec_dt (h : exec i s = .next t) (hdt : ∀ x, i ≠ .ldDtVx x) : t.dt = s.dt := by
  cases i with
  | ldDtVx x => exact absurd rfl (hdt x)
  | _ => exact (congrArg State.dt (exec_changesOnlyListed h) :)

theorem exec_st (h : exec i s = .next t) (hst : ∀ x, i ≠ .ldStVx x) : t.st = s.st := by
  cases i with
  | ldStVx x => exact absurd rfl (hst x)
  | _ => exact (congrArg State.st (exec_changesOnlyListed h) :)

theorem exec_mem (h : exec i s = .next t) (hbcd : ∀ x, i ≠ .ldBcd x) (hstore : ∀ x, i ≠ .ldMemVx x) :
    t.mem = s.mem := by
  cases i with
  | ldBcd x => exact absurd rfl (hbcd x)
  | ldMemVx x => exact absurd rfl (hstore x)
  | _ => exact (congrArg State.mem (exec_changesOnlyListed h) :)

theorem exec_fb (h : exec i s = .next t) (hcls : i ≠ .cls) (hdrw : ∀ x y n, i ≠ .drw x y n) :
    t.fb = s.fb := by
  cases i with
  | cls => exact absurd rfl hcls
  | drw x y n => exact absurd rfl (hdrw x y n)
  | _ => exact (congrArg State.fb (exec_changesOnlyListed h) :)

theorem exec_rng (h : exec i s = .next t) (hrnd : ∀ x kk, i ≠ .rnd x kk) : t.rng = s.rng := by
  cases i with
  | rnd x kk => exact absurd rfl (hrnd x kk)
  | _ => exact (congrArg State.rng (exec_changesOnlyListed h) :)

/-- No instruction touches the key latch; `step` clears it (log 20). -/
theorem exec_key (h : exec i s = .next t) : t.key = s.key := by
  cases i <;> exact (congrArg State.key (exec_changesOnlyListed h) :)

/-- An instruction writes no register but those `mayWriteReg` lists. -/
theorem exec_reg (h : exec i s = .next t) {r : Reg} (hr : mayWriteReg i r = false) :
    t.reg r = s.reg r := by
  cases i with
  | ldImm x | addImm x | ldReg x | orReg x | andReg x | xorReg x | rnd x | ldVxDt x =>
    cases h; exact State.reg_setReg_ne _ _ (by simpa [mayWriteReg] using hr)
  | ldVxKey x =>
    obtain rfl | ⟨b, rfl⟩ := execLdVxKey_eq_next h
    · rfl
    · exact State.reg_setReg_ne _ _ (by simpa [mayWriteReg] using hr)
  | addReg x | subReg x | subnReg x =>
    simp only [mayWriteReg, Bool.or_eq_false_iff, beq_eq_false_iff_ne] at hr
    cases h; rw [State.reg_next, State.reg_flagThenResult, if_neg hr.1, if_neg hr.2]
  | shrReg x | shlReg x =>
    simp only [mayWriteReg, Bool.or_eq_false_iff, beq_eq_false_iff_ne] at hr
    cases h; rw [State.reg_next, State.reg_resultThenFlag, if_neg hr.2, if_neg hr.1]
  | drw x y n =>
    cases h; exact State.reg_setReg_ne _ _ (by simpa [mayWriteReg] using hr)
  | ldVxMem x =>
    have hx : ¬ r.val < x.val + 1 := by
      have hlt : x < r := by simpa [mayWriteReg] using hr
      have := Fin.lt_def.mp hlt
      omega
    cases h; rw [State.reg_next, State.reg_loadRegs s _ x.isLt, if_neg hx]
  | _ => exact State.reg_of_v (congrArg State.v (exec_changesOnlyListed h) :) r

/-- Settles O15: each piece of state by its own lemma. -/
theorem onlyListedWritersChangeState : Obligations.OnlyListedWritersChangeState :=
  fun _ _ _ h => ⟨fun _ => exec_reg h, exec_i h, exec_stack h, exec_sp h, exec_dt h, exec_st h,
    exec_mem h, exec_fb h, exec_rng h, exec_key h⟩

/-! ### The invariant (R21, R25) -/

/-- Every instruction that completes keeps the invariant: the three that write memory or the generator do
so by an operation that keeps it, and the others leave both as they were. -/
theorem State.Inv.exec (hs : s.Inv) (h : exec i s = .next t) : t.Inv := by
  cases i with
  | ldBcd x => cases h; exact ((hs.memWrite _ _).memWrite _ _).memWrite _ _
  | ldMemVx x => cases h; exact hs.storeRegs _
  | rnd x kk => cases h; exact hs.advanceRng
  | _ => exact hs.of_eq (exec_mem h nofun nofun) (exec_rng h nofun)

/-- Settles O17: the instruction keeps the invariant, and the clear of the key latch does not touch it. -/
theorem stepKeepsInvariant : Obligations.StepKeepsInvariant := by
  intro s t hs h
  obtain ⟨i, u, -, he, rfl⟩ := step_eq_next.mp h
  exact (hs.exec he).of_eq rfl rfl

/-- Settles O19: nothing is listed in memory, and the seed is reduced to `RNG_W` bits. -/
theorem resetHasInvariant : Obligations.ResetHasInvariant := ⟨Memory.wf_nil, Params.rngSeed_lt⟩

/-! ### Reset (R24, R250) -/

/-- Memory with nothing listed reads as the font below 80. -/
theorem Memory.read_nil_font (k : Fin 80) : Memory.read [] k.val = Params.font k := by
  rw [Memory.read, Memory.unlisted, dif_pos k.isLt]

/-- Memory with nothing listed reads as 0 from 80 on. -/
theorem Memory.read_nil_above {a : Nat} (h : 80 ≤ a) : Memory.read [] a = 0 := by
  rw [Memory.read, Memory.unlisted, dif_neg (by omega)]

theorem State.reg_reset (r : Reg) : State.reset.reg r = 0 := Vector.getElem_replicate _

theorem State.stack_reset (k : Fin 16) : State.reset.stack[k] = 0 := Vector.getElem_replicate _

theorem State.keyDown_reset (k : Key) : State.reset.keyDown k = false := Vector.getElem_replicate _

/-- Settles O20: the registers, the stack and the keys are constant vectors, the framebuffer is dark, and
memory has nothing listed. -/
theorem resetLeavesTheListedValues : Obligations.ResetLeavesTheListedValues :=
  ⟨fun _ => rfl, State.reg_reset, rfl, rfl, rfl, rfl, rfl, State.stack_reset, Memory.read_nil_font,
    fun _ => Memory.read_nil_above, Framebuffer.pixel_dark, State.keyDown_reset, rfl, rfl⟩

/-! ### Results that agree up to a relation on the next states -/

/-- Two results agree up to `R`: both stop alike, or both go on, to states that `R` relates. -/
inductive ResultRel (R : State → State → Prop) : Result → Result → Prop
  | next {t t' : State} (h : R t t') : ResultRel R (.next t) (.next t')
  | fault (f : Fault) : ResultRel R (.fault f) (.fault f)
  | refused (r : Refusal) : ResultRel R (.refused r) (.refused r)

theorem ResultRel.fault_iff {R : State → State → Prop} {a b : Result} (h : ResultRel R a b)
    (f : Fault) : a = .fault f ↔ b = .fault f := by
  cases h <;> simp

theorem ResultRel.exists_next {R : State → State → Prop} {a b : Result} (h : ResultRel R a b)
    (t : State) (ha : a = .next t) : ∃ t', b = .next t' ∧ R t t' := by
  cases h with
  | next ht => cases ha; exact ⟨_, rfl, ht⟩
  | fault f => cases ha
  | refused r => cases ha

/-- The end of a step keeps agreement, when the clear of the key latch keeps the relation (R80, R87). -/
theorem ResultRel.finishStep {R : State → State → Prop} {a b : Result}
    (hclear : ∀ t t', R t t' → R t.clearKeys t'.clearKeys) (h : ResultRel R a b) :
    ResultRel R (finishStep a) (finishStep b) := by
  cases h with
  | next h => exact .next (hclear _ _ h)
  | fault f => exact .fault f
  | refused r => exact .refused r

/-- Two steps agree when they fetch the same word, the instruction it decodes to agrees, and the clear of
the key latch keeps the relation (R80). -/
theorem step_resultRel {R : State → State → Prop} {s s' : State} (hfetch : s'.fetch = s.fetch)
    (hclear : ∀ t t', R t t' → R t.clearKeys t'.clearKeys)
    (hexec : ∀ i, decode s.fetch = .ok i → ResultRel R (exec i s) (exec i s')) :
    ResultRel R (step s) (step s') := by
  unfold step
  rw [hfetch]
  cases hd : decode s.fetch with
  | error r => exact .fault _
  | ok i => exact (hexec i hd).finishStep hclear

/-- Apply `f` to the next state of a result; a result without one stays as it is. -/
def mapNext (f : State → State) : Result → Result
  | .next t => .next (f t)
  | .fault r => .fault r
  | .refused r => .refused r

theorem ResultRel.of_eq_mapNext {R : State → State → Prop} {f : State → State} {a b : Result}
    (h : ∀ t, R t (f t)) (hb : b = mapNext f a) : ResultRel R a b := by
  subst hb
  cases a with
  | next t => exact .next (h t)
  | fault f => exact .fault f
  | refused r => exact .refused r

/-! ### What reads neither `ST` nor the stack (R27) -/

/-- `s` with `ST` changed by `g` and the stack by `k`. -/
def State.mapStStack (g : Byte → Byte) (k : Vector Word 16 → Vector Word 16) (s : State) : State :=
  { s with st := g s.st, stack := k s.stack }

section MapStStack

variable (s : State) (g : Byte → Byte) (k : Vector Word 16 → Vector Word 16)

theorem State.drawSprite_mapStStack (vx vy : Byte) (n : Nat) :
    (s.mapStStack g k).drawSprite vx vy n = s.drawSprite vx vy n := by
  induction n with
  | zero => rfl
  | succ n ih => rw [State.drawSprite, ih]; rfl

theorem State.storeRegs_mapStStack (n : Nat) :
    (s.mapStStack g k).storeRegs n = (s.storeRegs n).mapStStack g k := by
  induction n with
  | zero => rfl
  | succ n ih => rw [State.storeRegs, ih]; rfl

theorem State.loadRegs_mapStStack (n : Nat) :
    (s.mapStStack g k).loadRegs n = (s.loadRegs n).mapStStack g k := by
  induction n with
  | zero => rfl
  | succ n ih => rw [State.loadRegs, ih]; rfl

theorem State.leastKey_mapStStack : (s.mapStStack g k).leastKey = s.leastKey := rfl

/-- A pop answers the same address from any stack with the same top entry (R17). -/
theorem State.pop_mapStStack (htop : ∀ j : Fin 16, s.sp = j.succ → (k s.stack)[j] = s.stack[j]) :
    (s.mapStStack g k).pop = s.pop.map (fun p => (p.1, p.2.mapStStack g k)) := by
  unfold State.pop
  by_cases h : 0 < s.sp.val
  · have hlt := s.sp.isLt
    have htop := htop ⟨s.sp.val - 1, by omega⟩ (Fin.ext (by simp only [Fin.val_succ]; omega))
    rw [dif_pos h, dif_pos (show 0 < (s.mapStStack g k).sp.val from h)]
    exact congrArg (fun a => some (a, _)) htop
  · rw [dif_neg h, dif_neg (show ¬ 0 < (s.mapStStack g k).sp.val from h)]
    rfl

/-- An instruction other than 2nnn and Fx18 has the same effect whatever `ST` and the stack hold, and
leaves both as they are; 00EE does so where the top entry is the same. -/
theorem exec_mapStStack {i : Instr} (hcall : ∀ nnn, i ≠ .call nnn) (hst : ∀ x, i ≠ .ldStVx x)
    (htop : i = .ret → ∀ j : Fin 16, s.sp = j.succ → (k s.stack)[j] = s.stack[j]) :
    exec i (s.mapStStack g k) = mapNext (State.mapStStack g k) (exec i s) := by
  cases i with
  | call nnn => exact absurd rfl (hcall nnn)
  | ldStVx x => exact absurd rfl (hst x)
  | ret =>
    simp only [exec, execRet, s.pop_mapStStack g k (htop rfl)]
    cases s.pop <;> rfl
  | drw x y n =>
    simp only [exec, execDrw, State.drawSprite_mapStStack]
    rfl
  | ldVxKey x =>
    simp only [exec, execLdVxKey, State.leastKey_mapStStack]
    cases s.leastKey <;> rfl
  | ldMemVx x =>
    simp only [exec, execLdMemVx, State.storeRegs_mapStStack]
    rfl
  | ldVxMem x =>
    simp only [exec, execLdVxMem, State.loadRegs_mapStStack]
    rfl
  | _ => rfl

end MapStStack

/-- 2nnn with room on the stack (R103, R17). -/
theorem exec_call_of_lt (nnn : Imm12) (s : State) (h : s.sp.val < 16) :
    exec (.call nnn) s = .next { s with
      pc := zext16 nnn, stack := s.stack.set s.sp.val s.pc, sp := ⟨s.sp.val + 1, by omega⟩ } := by
  simp only [exec, execCall, State.push, dif_pos h]
  rfl

/-- 2nnn with a full stack (R212). -/
theorem exec_call_of_not_lt (nnn : Imm12) (s : State) (h : ¬ s.sp.val < 16) :
    exec (.call nnn) s = .fault .stackOverflow := by
  simp only [exec, execCall, State.push, dif_neg h]
  rfl

/-! ### `ST` is seen by no instruction (R16, R27) -/

/-- `t'` is `t` but for `ST`. -/
def DiffersInSt (t t' : State) : Prop := ∃ b, t' = { t with st := b }

/-- Whatever `ST` holds, an instruction stops alike or goes on to states that differ in `ST` alone. -/
theorem exec_differsInSt (i : Instr) (s : State) (b : Byte) :
    ResultRel DiffersInSt (exec i s) (exec i { s with st := b }) := by
  cases i with
  | ldStVx x => exact .next ⟨_, rfl⟩
  | call nnn =>
    by_cases h : s.sp.val < 16
    · rw [exec_call_of_lt nnn s h, exec_call_of_lt nnn { s with st := b } h]
      exact .next ⟨b, rfl⟩
    · rw [exec_call_of_not_lt nnn s h, exec_call_of_not_lt nnn { s with st := b } h]
      exact .fault _
  | _ =>
    exact .of_eq_mapNext (fun t => ⟨b, rfl⟩)
      (exec_mapStStack s (fun _ => b) id nofun nofun (fun _ _ _ => rfl))

/-- Settles O49: the fetch does not read `ST`, every instruction agrees, and the key clear keeps the
agreement. -/
theorem soundTimerIsSeenByNoInstruction : Obligations.SoundTimerIsSeenByNoInstruction := by
  intro s b
  have hstep : ResultRel DiffersInSt (step s) (step { s with st := b }) :=
    step_resultRel rfl (fun _ _ ⟨b', h⟩ => ⟨b', congrArg State.clearKeys h⟩)
      (fun i _ => exec_differsInSt i s b)
  refine ⟨hstep.fault_iff, fun t ht => ?_⟩
  obtain ⟨_, hnext, b', rfl⟩ := hstep.exists_next t ht
  exact ⟨b', hnext⟩

/-! ### The stack is seen by 00EE alone (R17, R27, R261) -/

theorem decodeAlu_ne_ret (w : Word) : decodeAlu w ≠ .ok .ret := by
  unfold decodeAlu
  split <;> nofun

theorem decodeKey_ne_ret (w : Word) : decodeKey w ≠ .ok .ret := by
  unfold decodeKey
  split <;> nofun

theorem decodeMisc_ne_ret (w : Word) : decodeMisc w ≠ .ok .ret := by
  unfold decodeMisc
  split <;> nofun

theorem decodeSys_eq_ret {w : Word} (h : decodeSys w = .ok .ret) : w = 0x00EE := by
  unfold decodeSys at h
  split at h
  · cases h
  · split at h
    · assumption
    · cases h

/-- 0x00EE is the only word that decodes to `RET` (R64). -/
theorem decode_eq_ret {w : Word} (h : decode w = .ok .ret) : w = 0x00EE := by
  unfold decode at h
  split at h
  case h_1 => exact decodeSys_eq_ret h
  case h_6 | h_10 => split at h <;> cases h
  case h_9 => exact absurd h (decodeAlu_ne_ret w)
  case h_15 => exact absurd h (decodeKey_ne_ret w)
  case h_16 => exact absurd h (decodeMisc_ne_ret w)
  all_goals cases h

/-- `t'` is `t` but for the entries of the stack. -/
def DiffersInStack (t t' : State) : Prop := ∃ k, t' = { t with stack := k }

/-- Whatever the stack holds, an instruction stops alike or goes on to states that differ in the stack's
entries alone; 00EE needs the top entry to be the same. -/
theorem exec_differsInStack (i : Instr) (s : State) (k : Vector Word 16)
    (htop : i = .ret → ∀ j : Fin 16, s.sp = j.succ → k[j] = s.stack[j]) :
    ResultRel DiffersInStack (exec i s) (exec i { s with stack := k }) := by
  cases i with
  | ldStVx x => exact .next ⟨k, rfl⟩
  | call nnn =>
    by_cases h : s.sp.val < 16
    · rw [exec_call_of_lt nnn s h, exec_call_of_lt nnn { s with stack := k } h]
      exact .next ⟨_, rfl⟩
    · rw [exec_call_of_not_lt nnn s h, exec_call_of_not_lt nnn { s with stack := k } h]
      exact .fault _
  | _ =>
    exact .of_eq_mapNext (fun t => ⟨k, rfl⟩) (exec_mapStStack s id (fun _ => k) nofun nofun htop)

/-- Settles O50: as O49, with the agreement on the top entry used where the word decodes to 00EE. -/
theorem stackIsSeenOnlyByReturn : Obligations.StackIsSeenOnlyByReturn := by
  intro s k htop
  have hstep : ResultRel DiffersInStack (step s) (step { s with stack := k }) :=
    step_resultRel rfl (fun _ _ ⟨k', h⟩ => ⟨k', congrArg State.clearKeys h⟩)
      (fun i hd => exec_differsInStack i s k (fun hi => htop (decode_eq_ret (hi ▸ hd))))
  refine ⟨hstep.fault_iff, fun t ht => ?_⟩
  obtain ⟨_, hnext, k', rfl⟩ := hstep.exists_next t ht
  exact ⟨k', hnext⟩

end Sys2Proof.Machine
end

section
/-!
PROOFS. Memory (spec/20_memory.md): a byte read after a byte written (R41 to R43), and the coherence of
stores and fetches (R51), also where the word fetched straddles the wrap (D11).
-/

namespace Sys2Proof.Machine

/-! ### Read after write (R43) -/

/-- Settles O39: the two cases of the read-after-write law, whose condition is equality mod 4096. -/
theorem memoryReadAfterWrite : Obligations.MemoryReadAfterWrite := by
  intro s a b u
  rw [State.memRead_memWrite]
  exact ⟨fun h => if_pos h.symm, fun h => if_neg fun hba => h hba.symm⟩

/-! ### Neighbouring bytes -/

/-- The byte after the one an address names, itself reduced mod 4096 (R41). -/
theorem memIndex_add_one (a : Word) : memIndex (a + 1) = (memIndex a + 1) % 4096 := by
  simp only [memIndex, BitVec.toNat_add, show (1 : Word).toNat = 1 from rfl]
  omega

/-- The two bytes of a word are different bytes, also across the wrap. -/
theorem memIndex_add_one_ne (a : Word) : memIndex (a + 1) ≠ memIndex a := by
  rw [memIndex_add_one]
  omega

/-- Addresses that name the same byte have successors that name the same byte. -/
theorem memIndex_add_one_congr {a b : Word} (h : memIndex a = memIndex b) :
    memIndex (a + 1) = memIndex (b + 1) := by
  rw [memIndex_add_one, memIndex_add_one, h]

/-- Byte `k + 1` of a memory operand follows byte `k` (R41, R140). -/
theorem State.dataAddr_add_one (s : State) (k : Nat) : s.dataAddr (k + 1) = s.dataAddr k + 1 := by
  rw [State.dataAddr, State.dataAddr, BitVec.ofNat_add, ← BitVec.add_assoc]
  rfl

/-! ### The word written is the word read (R44, R51) -/

/-- Two bytes written at an address and the next are the word read there: the second write does not touch
the first byte. -/
theorem State.memReadWord_memWrite_memWrite (s : State) (a : Word) (hi lo : Byte) :
    ((s.memWrite a hi).memWrite (a + 1) lo).memReadWord a = wordOfBytes hi lo := by
  rw [State.memReadWord, State.memRead_memWrite, if_neg (memIndex_add_one_ne a).symm,
    State.memRead_memWrite, if_pos rfl, State.memRead_memWrite, if_pos rfl]

/-- Settles O8: the bytes placed at `pc` and `pc + 1` are the halves of the word. -/
theorem placedWordIsFetched : Obligations.PlacedWordIsFetched := by
  intro s w
  refine ⟨?_, rfl⟩
  calc (s.withFetchWord 16 w.toNat).fetch
      = wordOfBytes (highByte (tableWord 16 w.toNat)) (lowByte (tableWord 16 w.toNat)) :=
        State.memReadWord_memWrite_memWrite ..
    _ = w := by rw [wordOfBytes_halves, tableWord_toNat]

/-! ### A block store over the next instruction (R51, R145) -/

/-- After a block store, an address that names byte `j` of the operand reads as register `j` (R145). -/
theorem State.memRead_storeRegs (s : State) {n : Nat} (hn : n ≤ 16) {j : Reg} (hj : j.val < n) {a : Word}
    (ha : memIndex (s.dataAddr j.val) = memIndex a) : (s.storeRegs n).memRead a = s.reg j := by
  have hpos : (memIndex a + (4096 - s.i.toNat % 4096)) % 4096 = j.val := by
    rw [← ha, State.memIndex_dataAddr]
    omega
  rw [State.memRead, State.read_storeRegs s n hn, dif_pos ⟨hpos.trans_lt hj, memIndex_lt a⟩]
  exact congrArg s.reg (Fin.ext hpos)

/-- Settles O40: `pc` names byte `j` of the operand, so `pc + 1` names byte `j + 1`, and the store left
registers `j` and `j + 1` there. -/
theorem storedWordIsFetchedNext : Obligations.StoredWordIsFetchedNext := by
  intro x j k s t h hjk hkx hpc
  have hpc1 : memIndex (s.dataAddr k.val) = memIndex (t.pc + 1) := by
    rw [← hjk, State.dataAddr_add_one]
    exact memIndex_add_one_congr hpc
  have hmem : t.mem = (s.storeRegs (x.val + 1)).mem := by cases h; rfl
  have hread {r : Reg} (hr : r.val ≤ x.val) {a : Word} (ha : memIndex (s.dataAddr r.val) = memIndex a) :
      t.memRead a = s.reg r :=
    (State.memRead_of_mem hmem a).trans (s.memRead_storeRegs x.isLt (Nat.lt_succ_of_le hr) ha)
  calc t.fetch = wordOfBytes (t.memRead t.pc) (t.memRead (t.pc + 1)) := rfl
    _ = wordOfBytes (s.reg j) (s.reg k) := by
      rw [hread (Nat.le_of_succ_le (hjk.trans_le hkx)) hpc, hread hkx hpc1]

end Sys2Proof.Machine
end

section
/-!
PROOFS. The encoding (spec/30_encoding.md R61 to R67): decoding and encoding undo one another, and the
decoder's case procedure accepts the words of the opcode table.
-/

namespace Sys2Proof

/-! ### The decoder's groups, by the major opcode (R66) -/

theorem decode_of_alu {w : Word} (h : fieldN0 w = 0x8) : decode w = decodeAlu w := by
  simp [decode, h]

theorem decode_of_key {w : Word} (h : fieldN0 w = 0xE) : decode w = decodeKey w := by
  simp [decode, h]

theorem decode_of_misc {w : Word} (h : fieldN0 w = 0xF) : decode w = decodeMisc w := by
  simp [decode, h]

/-! ### Decoding an encoding -/

/-- The decoder reads back every instruction, operands included. -/
theorem decode_encode (i : Instr) : decode (encode i) = .ok i := by
  cases i with
  | cls | ret => rfl
  | jp nnn | call nnn | ldI nnn | jpV0 nnn => simp [encode, decode]
  | seImm x kk | sneImm x kk | ldImm x kk | addImm x kk | rnd x kk => simp [encode, decode]
  | seReg x y | sneReg x y => simp [encode, decode]
  | drw x y n => simp [encode, decode]
  | ldReg x y | orReg x y | andReg x y | xorReg x y | addReg x y | subReg x y | shrReg x y
  | subnReg x y | shlReg x y =>
    rw [encode, decode_of_alu (fieldN0_formXYN ..)]
    simp [decodeAlu]
  | skp x | sknp x =>
    rw [encode, decode_of_key (fieldN0_formXKK ..)]
    simp [decodeKey]
  | ldVxDt x | ldVxKey x | ldDtVx x | ldStVx x | addI x | ldFont x | ldBcd x | ldMemVx x
  | ldVxMem x =>
    rw [encode, decode_of_misc (fieldN0_formXKK ..)]
    simp [decodeMisc]

/-- The sixteen bits of a word, read as the opcode table numbers them, decode as the word. -/
theorem decodeTableWord_toNat (w : Word) : decodeTableWord 16 w.toNat = (decode w).toOption := by
  rw [decodeTableWord, tableWord_toNat, decodeBytes_bytesOfWord]
  cases decode w <;> rfl

/-- Settles O2: the fields of an encoded word are the operands, and its bytes are the word. -/
theorem decodeAfterEncodeIsIdentity : Obligations.DecodeAfterEncodeIsIdentity := fun i =>
  ⟨decode_encode i, by rw [decodeTableWord_toNat, decode_encode]; rfl⟩

/-! ### A word from its major opcode, its minor opcode and its operands (R61, R62) -/

variable {w : Word}

theorem formNNN_eq_self {op : BitVec 4} (h : fieldN0 w = op) : formNNN op (fieldNNN w) = w :=
  h ▸ formNNN_fields w

theorem formXKK_eq_self {op : BitVec 4} {kk : Byte} (h : fieldN0 w = op) (hkk : fieldKK w = kk) :
    formXKK op (fieldX w) kk = w :=
  h ▸ hkk ▸ formXKK_fields w

theorem formXYN_eq_self {op n : BitVec 4} (h : fieldN0 w = op) (hn : fieldN w = n) :
    formXYN op (fieldX w) (fieldY w) n = w :=
  h ▸ hn ▸ formXYN_fields w

/-! ### Encoding what was decoded -/

theorem encode_of_decodeSys {i : Instr} (h : decodeSys w = .ok i) : encode i = w := by
  unfold decodeSys at h
  split at h
  · next hw => cases h; exact hw.symm
  · split at h
    · next hw => cases h; exact hw.symm
    · cases h

theorem encode_of_decodeAlu {i : Instr} (hop : fieldN0 w = 0x8) (h : decodeAlu w = .ok i) :
    encode i = w := by
  unfold decodeAlu at h
  split at h <;> cases h <;> next hn => exact formXYN_eq_self hop hn

theorem encode_of_decodeKey {i : Instr} (hop : fieldN0 w = 0xE) (h : decodeKey w = .ok i) :
    encode i = w := by
  unfold decodeKey at h
  split at h <;> cases h <;> next hkk => exact formXKK_eq_self hop hkk

theorem encode_of_decodeMisc {i : Instr} (hop : fieldN0 w = 0xF) (h : decodeMisc w = .ok i) :
    encode i = w := by
  unfold decodeMisc at h
  split at h <;> cases h <;> next hkk => exact formXKK_eq_self hop hkk

/-- A word that decodes is the word of the instruction it decodes to. -/
theorem encode_of_decode {i : Instr} (h : decode w = .ok i) : encode i = w := by
  unfold decode at h
  split at h
  case h_1 => exact encode_of_decodeSys h
  case h_2 hop | h_3 hop | h_11 hop | h_12 hop => cases h; exact formNNN_eq_self hop
  case h_4 hop | h_5 hop | h_7 hop | h_8 hop | h_13 hop => cases h; exact formXKK_eq_self hop rfl
  case h_6 hop | h_10 hop =>
    split at h
    · next hn => cases h; exact formXYN_eq_self hop hn
    · cases h
  case h_9 hop => exact encode_of_decodeAlu hop h
  case h_14 hop => cases h; exact formXYN_eq_self hop rfl
  case h_15 hop => exact encode_of_decodeKey hop h
  case h_16 =>
    have hop : fieldN0 w = 0xF := by
      generalize fieldN0 w = op at *
      revert op
      decide
    exact encode_of_decodeMisc hop h

/-- Settles O3: every branch of the decoder fixes the opcode bits of the word, and the operands are its
other fields. -/
theorem encodeAfterDecodeIsIdentity : Obligations.EncodeAfterDecodeIsIdentity :=
  fun _ _ => encode_of_decode

/-- The words that decode are the encodings. -/
theorem exists_decode_iff_exists_encode (w : Word) :
    (∃ i, decode w = .ok i) ↔ ∃ i, encode i = w :=
  exists_congr fun i => ⟨encode_of_decode, fun h => h ▸ decode_encode i⟩

/-! ### Encodings and the rows of the opcode table (R64) -/

/-- The word of every instruction fits a row of the table. -/
theorem wordWellFormed_encode : ∀ i : Instr, wordWellFormed (encode i) = true
  | .cls => Laws.TableRow.cls
  | .ret => Laws.TableRow.ret
  | .jp nnn => Laws.TableRow.jp nnn
  | .call nnn => Laws.TableRow.call nnn
  | .seImm x kk => Laws.TableRow.seImm x kk
  | .sneImm x kk => Laws.TableRow.sneImm x kk
  | .seReg x y => Laws.TableRow.seReg x y
  | .ldImm x kk => Laws.TableRow.ldImm x kk
  | .addImm x kk => Laws.TableRow.addImm x kk
  | .ldReg x y => Laws.TableRow.ldReg x y
  | .orReg x y => Laws.TableRow.orReg x y
  | .andReg x y => Laws.TableRow.andReg x y
  | .xorReg x y => Laws.TableRow.xorReg x y
  | .addReg x y => Laws.TableRow.addReg x y
  | .subReg x y => Laws.TableRow.subReg x y
  | .shrReg x y => Laws.TableRow.shrReg x y
  | .subnReg x y => Laws.TableRow.subnReg x y
  | .shlReg x y => Laws.TableRow.shlReg x y
  | .sneReg x y => Laws.TableRow.sneReg x y
  | .ldI nnn => Laws.TableRow.ldI nnn
  | .jpV0 nnn => Laws.TableRow.jpV0 nnn
  | .rnd x kk => Laws.TableRow.rnd x kk
  | .drw x y n => Laws.TableRow.drw x y n
  | .skp x => Laws.TableRow.skp x
  | .sknp x => Laws.TableRow.sknp x
  | .ldVxDt x => Laws.TableRow.ldVxDt x
  | .ldVxKey x => Laws.TableRow.ldVxKey x
  | .ldDtVx x => Laws.TableRow.ldDtVx x
  | .ldStVx x => Laws.TableRow.ldStVx x
  | .addI x => Laws.TableRow.addI x
  | .ldFont x => Laws.TableRow.ldFont x
  | .ldBcd x => Laws.TableRow.ldBcd x
  | .ldMemVx x => Laws.TableRow.ldMemVx x
  | .ldVxMem x => Laws.TableRow.ldVxMem x

/-! ### From a word under the mask of a row to the encoding (R64) -/

/-- The mask of the two fixed words keeps the whole word. -/
theorem eq_of_and_all {p : Word} (h : w &&& 0xFFFF = p) : p = w :=
  h.symm.trans BitVec.and_allOnes

theorem formNNN_of_and_op {op : BitVec 4} (h : w &&& 0xF000 = formNNN op 0) :
    formNNN op (fieldNNN w) = w := by
  rw [← formNNN_fields w, formNNN_and_op] at h
  exact formNNN_eq_self (by simpa using congrArg fieldN0 h)

theorem formXKK_of_and_op {op : BitVec 4} (h : w &&& 0xF000 = formXKK op 0 0) :
    formXKK op (fieldX w) (fieldKK w) = w := by
  rw [← formXKK_fields w, formXKK_and_op] at h
  exact formXKK_eq_self (by simpa using congrArg fieldN0 h) rfl

theorem formXKK_of_and_opKK {op : BitVec 4} {kk : Byte} (h : w &&& 0xF0FF = formXKK op 0 kk) :
    formXKK op (fieldX w) kk = w := by
  rw [← formXKK_fields w, formXKK_and_opKK] at h
  exact formXKK_eq_self (by simpa using congrArg fieldN0 h) (by simpa using congrArg fieldKK h)

theorem formXYN_of_and_op {op : BitVec 4} (h : w &&& 0xF000 = formXYN op 0 0 0) :
    formXYN op (fieldX w) (fieldY w) (fieldN w) = w := by
  rw [← formXYN_fields w, formXYN_and_op] at h
  exact formXYN_eq_self (by simpa using congrArg fieldN0 h) rfl

theorem formXYN_of_and_opN {op n : BitVec 4} (h : w &&& 0xF00F = formXYN op 0 0 n) :
    formXYN op (fieldX w) (fieldY w) n = w := by
  rw [← formXYN_fields w, formXYN_and_opN] at h
  exact formXYN_eq_self (by simpa using congrArg fieldN0 h) (by simpa using congrArg fieldN h)

/-! ### From a row of the table to an encoding: one instruction for each row, in the table's order -/

theorem exists_encode_of_rowLow :
    ∀ r ∈ opRowsLow, w &&& r.mask = r.pattern → ∃ i, encode i = w := by
  simp only [opRowsLow, List.forall_mem_cons]
  exact ⟨fun h => ⟨.cls, eq_of_and_all h⟩, fun h => ⟨.ret, eq_of_and_all h⟩,
    fun h => ⟨.jp _, formNNN_of_and_op h⟩, fun h => ⟨.call _, formNNN_of_and_op h⟩,
    fun h => ⟨.seImm _ _, formXKK_of_and_op h⟩, fun h => ⟨.sneImm _ _, formXKK_of_and_op h⟩,
    fun h => ⟨.seReg _ _, formXYN_of_and_opN h⟩, fun h => ⟨.ldImm _ _, formXKK_of_and_op h⟩,
    fun h => ⟨.addImm _ _, formXKK_of_and_op h⟩, nofun⟩

theorem exists_encode_of_rowAlu :
    ∀ r ∈ opRowsAlu, w &&& r.mask = r.pattern → ∃ i, encode i = w := by
  simp only [opRowsAlu, List.forall_mem_cons]
  exact ⟨fun h => ⟨.ldReg _ _, formXYN_of_and_opN h⟩, fun h => ⟨.orReg _ _, formXYN_of_and_opN h⟩,
    fun h => ⟨.andReg _ _, formXYN_of_and_opN h⟩, fun h => ⟨.xorReg _ _, formXYN_of_and_opN h⟩,
    fun h => ⟨.addReg _ _, formXYN_of_and_opN h⟩, fun h => ⟨.subReg _ _, formXYN_of_and_opN h⟩,
    fun h => ⟨.shrReg _ _, formXYN_of_and_opN h⟩, fun h => ⟨.subnReg _ _, formXYN_of_and_opN h⟩,
    fun h => ⟨.shlReg _ _, formXYN_of_and_opN h⟩, nofun⟩

theorem exists_encode_of_rowHigh :
    ∀ r ∈ opRowsHigh, w &&& r.mask = r.pattern → ∃ i, encode i = w := by
  simp only [opRowsHigh, List.forall_mem_cons]
  exact ⟨fun h => ⟨.sneReg _ _, formXYN_of_and_opN h⟩, fun h => ⟨.ldI _, formNNN_of_and_op h⟩,
    fun h => ⟨.jpV0 _, formNNN_of_and_op h⟩, fun h => ⟨.rnd _ _, formXKK_of_and_op h⟩,
    fun h => ⟨.drw _ _ (fieldN w).toFin, formXYN_of_and_op h⟩,
    fun h => ⟨.skp _, formXKK_of_and_opKK h⟩, fun h => ⟨.sknp _, formXKK_of_and_opKK h⟩, nofun⟩

theorem exists_encode_of_rowMisc :
    ∀ r ∈ opRowsMisc, w &&& r.mask = r.pattern → ∃ i, encode i = w := by
  simp only [opRowsMisc, List.forall_mem_cons]
  exact ⟨fun h => ⟨.ldVxDt _, formXKK_of_and_opKK h⟩, fun h => ⟨.ldVxKey _, formXKK_of_and_opKK h⟩,
    fun h => ⟨.ldDtVx _, formXKK_of_and_opKK h⟩, fun h => ⟨.ldStVx _, formXKK_of_and_opKK h⟩,
    fun h => ⟨.addI _, formXKK_of_and_opKK h⟩, fun h => ⟨.ldFont _, formXKK_of_and_opKK h⟩,
    fun h => ⟨.ldBcd _, formXKK_of_and_opKK h⟩, fun h => ⟨.ldMemVx _, formXKK_of_and_opKK h⟩,
    fun h => ⟨.ldVxMem _, formXKK_of_and_opKK h⟩, nofun⟩

/-- A word that fits a row of the table is an encoding. -/
theorem exists_encode_of_row : ∀ r ∈ opcodeTable, w &&& r.mask = r.pattern → ∃ i, encode i = w := by
  simp only [opcodeTable, List.forall_mem_append]
  exact ⟨⟨⟨exists_encode_of_rowLow, exists_encode_of_rowAlu⟩, exists_encode_of_rowHigh⟩,
    exists_encode_of_rowMisc⟩

/-! ### The decoder and the table (R66, R67) -/

/-- The words that decode are those that fit a row of the table: both are the encodings. -/
theorem exists_decode_iff_exists_row (w : Word) :
    (∃ i, decode w = .ok i) ↔ ∃ r ∈ opcodeTable, w &&& r.mask = r.pattern := by
  rw [exists_decode_iff_exists_encode]
  constructor
  · rintro ⟨i, rfl⟩
    exact (wordWellFormed_iff _).mp (wordWellFormed_encode i)
  · rintro ⟨r, hr, h⟩
    exact exists_encode_of_row r hr h

theorem decodeSys_eq_error {r : Reject} (h : decodeSys w = .error r) : r = .unknownOpCode := by
  unfold decodeSys at h
  split at h
  · cases h
  · split at h <;> cases h
    rfl

theorem decodeAlu_eq_error {r : Reject} (h : decodeAlu w = .error r) : r = .unknownOpCode := by
  unfold decodeAlu at h
  split at h <;> cases h
  rfl

theorem decodeKey_eq_error {r : Reject} (h : decodeKey w = .error r) : r = .unknownOpCode := by
  unfold decodeKey at h
  split at h <;> cases h
  rfl

theorem decodeMisc_eq_error {r : Reject} (h : decodeMisc w = .error r) : r = .unknownOpCode := by
  unfold decodeMisc at h
  split at h <;> cases h
  rfl

/-- A whole word is never rejected as truncated. -/
theorem decode_eq_error {r : Reject} (h : decode w = .error r) : r = .unknownOpCode := by
  unfold decode at h
  split at h
  case h_1 => exact decodeSys_eq_error h
  case h_6 | h_10 =>
    split at h <;> cases h
    rfl
  case h_9 => exact decodeAlu_eq_error h
  case h_15 => exact decodeKey_eq_error h
  case h_16 => exact decodeMisc_eq_error h
  all_goals cases h

theorem decode_eq_unknownOpCode (h : ∀ r ∈ opcodeTable, w &&& r.mask ≠ r.pattern) :
    decode w = .error .unknownOpCode := by
  cases hd : decode w with
  | ok i =>
    obtain ⟨r, hr, hfit⟩ := (exists_decode_iff_exists_row w).mp ⟨i, hd⟩
    exact absurd hfit (h r hr)
  | error r => rw [decode_eq_error hd]

/-- Settles O4: the words that decode and the words of the table are both the encodings. -/
theorem decoderAgreesWithOpcodeTable : Obligations.DecoderAgreesWithOpcodeTable := fun w =>
  ⟨exists_decode_iff_exists_row w, decode_eq_unknownOpCode⟩

/-! ### The rows exclude each other (R66) -/

/-- Two rows that one word fits agree on the bits that both masks keep. -/
theorem OpRow.pattern_and_mask_comm {a b : OpRow} (ha : w &&& a.mask = a.pattern)
    (hb : w &&& b.mask = b.pattern) : a.pattern &&& b.mask = b.pattern &&& a.mask := by
  rw [← ha, ← hb, BitVec.and_assoc, BitVec.and_assoc, BitVec.and_comm a.mask]

/-- Different rows of the table differ on a bit that both masks keep. -/
theorem opcodeTable_pattern_and_mask_inj :
    ∀ a b : Fin opcodeTable.length,
      opcodeTable[a].pattern &&& opcodeTable[b].mask = opcodeTable[b].pattern &&& opcodeTable[a].mask →
        a = b := by
  decide

/-- Settles O5: rows that one word fits agree where both masks keep a bit, and no two rows do. -/
theorem opcodeRowsAreDisjoint : Obligations.OpcodeRowsAreDisjoint :=
  ⟨rfl, fun _ a b ha hb => opcodeTable_pattern_and_mask_inj a b (OpRow.pattern_and_mask_comm ha hb)⟩

/-! ### Words written out -/

/-- Settles O1: the seven words are encodings, and the four near misses fit no row of the table. -/
theorem decodesWordsOfTheTable : Obligations.DecodesWordsOfTheTable :=
  ⟨decode_encode .cls, decode_encode (.jp 0x234), decode_encode (.subnReg 10 11),
    decode_encode (.drw 1 2 10), decode_encode (.addI 9), decode_encode (.sknp 1),
    decode_encode (.rnd 15 0xF0), decode_eq_unknownOpCode (by decide),
    decode_eq_unknownOpCode (by decide), decode_eq_unknownOpCode (by decide),
    decode_eq_unknownOpCode (by decide)⟩

end Sys2Proof
end

section
/-!
PROOFS. The step cycle (spec/40_step_cycle.md R80 to R87): what is fetched, that a step is the decoded
instruction and then the clear of the key latch, and what a completed step does to the latch and the timers.
-/

namespace Sys2Proof.Machine

variable {s t : State} {i : Instr}

/-! ### Fetch (R81) -/

/-- Settles O6: both addresses are reduced on their own, and `pc + 1` is reduced like the number. -/
theorem fetchIsBigEndianAndWraps : Obligations.FetchIsBigEndianAndWraps := by
  intro s
  have hlow : memIndex (s.pc + 1) = (s.pc.toNat + 1) % 4096 := by
    rw [memIndex_add_one, memIndex, Nat.mod_add_mod]
  calc s.fetch = wordOfBytes (s.mem.read (memIndex s.pc)) (s.mem.read (memIndex (s.pc + 1))) := rfl
    _ = s.mem.read (s.pc.toNat % 4096) ++ s.mem.read ((s.pc.toNat + 1) % 4096) := by
      rw [hlow]; rfl

/-! ### A step is the decoded instruction and the end of a step (R80) -/

theorem step_of_decode (hd : decode s.fetch = .ok i) : step s = finishStep (exec i s) := by
  rw [step, hd]

/-- A completed step whose word decodes to `i` is `exec` of `i` and the clear of the key latch (R80, R87). -/
theorem exec_of_step_eq_next (hd : decode s.fetch = .ok i) (h : step s = .next t) :
    ∃ u, exec i s = .next u ∧ t = u.clearKeys := by
  obtain ⟨j, u, hj, he, ht⟩ := step_eq_next.mp h
  obtain rfl : j = i := Except.ok.inj (hj.symm.trans hd)
  exact ⟨u, he, ht⟩

/-- Settles O7: the end of a step, on each of the three answers `exec` can give. -/
theorem stepRunsDecodedInstruction : Obligations.StepRunsDecodedInstruction := by
  intro s i hd
  rw [step_of_decode hd]
  cases exec i s with
  | next t => rfl
  | fault f => rfl
  | refused r => rfl

/-! ### The key latch and the timers after a completed step (R86, R87) -/

/-- Settles O13: the instruction leaves the latch (R26), and the clear after it writes nothing else. -/
theorem completedStepClearsKeyLatch : Obligations.CompletedStepClearsKeyLatch := by
  intro s t h
  obtain ⟨i, u, hd, he, rfl⟩ := step_eq_next.mp h
  exact ⟨u.keyDown_clearKeys, i, u, hd, he, exec_key he, rfl⟩

/-- Settles O14: the timers are as the instruction left them, which is by its row of R26 but for Fx15 and
Fx18, and those write `V[x]`. -/
theorem stepMovesTimersOnlyByWrites : Obligations.StepMovesTimersOnlyByWrites := by
  intro s t i hd h
  obtain ⟨u, he, rfl⟩ := exec_of_step_eq_next hd h
  refine ⟨exec_dt (t := u) he, exec_st (t := u) he, ?_, ?_⟩
  · rintro x rfl
    cases he
    rfl
  · rintro x rfl
    cases he
    rfl

end Sys2Proof.Machine
end

section
/-!
PROOFS. Control transfer (spec/41_control_flow.md R100 to R108): the two jumps, the four skips, and a call
and a return over the call stack.
-/

namespace Sys2Proof.Machine

variable {s : State}

/-! ### Jumps (R102, R108) -/

/-- Settles O21: the word is the encoding of the jump, and the end of the step clears the key latch. -/
theorem jumpSetsPc : Obligations.JumpSetsPc := by
  intro nnn s
  have hdecode : decode (0x1#4 ++ nnn : Word) = .ok (.jp nnn) := decode_encode (.jp nnn)
  refine ⟨hdecode, rfl, fun hfetch => ?_⟩
  rw [step_of_decode (hfetch ▸ hdecode)]
  rfl

/-- A widening to 16 bits keeps the number (R7). -/
theorem zext16_toNat {w : Nat} (hw : w ≤ 16) (v : BitVec w) : (zext16 v).toNat = v.toNat :=
  BitVec.toNat_setWidth_of_le hw

/-- Settles O22: a byte and a 12-bit address have a sum of at most 4350, which 16 bits hold. -/
theorem indexedJumpAddsV0 : Obligations.IndexedJumpAddsV0 := by
  intro nnn s
  refine ⟨decode_encode (.jpV0 nnn), _, rfl, rfl, ?_⟩
  have hreg := (s.reg 0).isLt
  have hnnn := nnn.isLt
  have hr : (zext16 (s.reg 0)).toNat = (s.reg 0).toNat := zext16_toNat (by decide) _
  have hn : (zext16 nnn).toNat = nnn.toNat := zext16_toNat (by decide) _
  rw [State.setPc_pc, BitVec.toNat_add_of_lt (by omega), hr, hn]

/-! ### Skips (R85, R104 to R107) -/

/-- A skip on a test that decides `p` moves `pc` as `p` says, and nothing else (R85). -/
theorem State.skipIf_of_iff {c : Bool} {p : Prop} [Decidable p] (h : c = true ↔ p) :
    s.skipIf c = { s with pc := if p then s.pc + 4 else s.pc + 2 } :=
  congrArg s.setPc (if_congr h rfl rfl)

/-- Settles O23: the two tests decide equality with `kk` and its negation. -/
theorem skipsOnImmediate : Obligations.SkipsOnImmediate := fun x kk _ =>
  ⟨decode_encode (.seImm x kk), decode_encode (.sneImm x kk),
    congrArg _ (State.skipIf_of_iff beq_iff_eq), congrArg _ (State.skipIf_of_iff bne_iff_ne)⟩

/-- In the groups 5xy_ and 9xy_ a low nibble other than 0 is an unknown opcode (R106, R107). -/
theorem decode_formXYN_of_ne_zero {op n : BitVec 4} (hop : op = 0x5 ∨ op = 0x9) (hn : n ≠ 0)
    (x y : Reg) : decode (formXYN op x y n) = .error .unknownOpCode := by
  obtain rfl | rfl := hop
  · simpa [decode] using hn
  · simpa [decode] using hn

/-- Settles O24: the two tests decide equality of the registers and its negation. -/
theorem skipsOnRegisters : Obligations.SkipsOnRegisters := fun x y _ =>
  ⟨fun _ hn => ⟨decode_formXYN_of_ne_zero (.inl rfl) hn x y,
      decode_formXYN_of_ne_zero (.inr rfl) hn x y⟩,
    decode_encode (.seReg x y), decode_encode (.sneReg x y),
    congrArg _ (State.skipIf_of_iff beq_iff_eq), congrArg _ (State.skipIf_of_iff bne_iff_ne)⟩

/-! ### Call and return (R101, R103) -/

/-- 2nnn on a full stack (R212). -/
theorem exec_call_of_sp_eq (nnn : Imm12) (h : s.sp = 16) :
    exec (.call nnn) s = .fault .stackOverflow :=
  exec_call_of_not_lt nnn s (by rw [h]; decide)

/-- 2nnn with `j` entries on the stack, fewer than 16 (R103; D14, log 9). -/
theorem exec_call_of_sp_eq_castSucc (nnn : Imm12) {j : Fin 16} (h : s.sp = j.castSucc) :
    exec (.call nnn) s =
      .next { s with stack := s.stack.set j.val s.pc, sp := j.succ, pc := nnn.setWidth 16 } := by
  cases s
  cases h
  exact exec_call_of_lt nnn _ j.isLt

/-- Settles O25: a stack is full or has a free entry. -/
theorem callPushesItsAddress : Obligations.CallPushesItsAddress := fun nnn _ =>
  ⟨exec_call_of_sp_eq nnn, fun _ => exec_call_of_sp_eq_castSucc nnn⟩

/-- 00EE on an empty stack (R211). -/
theorem exec_ret_of_sp_eq_zero (h : s.sp = 0) : exec .ret s = .fault .stackUnderflow := by
  rw [exec, execRet, s.pop_eq_none.mpr h]
  rfl

/-- A pop from `j + 1` entries answers entry `j` and leaves it in place (R17). -/
theorem State.pop_of_sp_eq_succ {j : Fin 16} (h : s.sp = j.succ) :
    s.pop = some (s.stack[j], { s with sp := j.castSucc }) := by
  cases s
  cases h
  exact dif_pos j.val.succ_pos

/-- 00EE with `j + 1` entries on the stack (R101; D14, log 9). -/
theorem exec_ret_of_sp_eq_succ {j : Fin 16} (h : s.sp = j.succ) :
    exec .ret s = .next { s with sp := j.castSucc, pc := s.stack[j] + 2 } := by
  rw [exec, execRet, State.pop_of_sp_eq_succ h]
  rfl

/-- Settles O26: a stack is empty or has a last entry. -/
theorem returnPopsAndAddsTwo : Obligations.ReturnPopsAndAddsTwo := fun _ =>
  ⟨exec_ret_of_sp_eq_zero, fun _ => exec_ret_of_sp_eq_succ⟩

/-- Settles O27: the call, as it completes, had a free entry `j`; the return finds `j + 1` entries, the last
of them the address of the call. -/
theorem callThenReturnComesBack : Obligations.CallThenReturnComesBack := by
  intro nnn s t u hcall hsp hstack
  obtain ⟨j, hj⟩ | hfull := s.sp.eq_castSucc_or_eq_last
  · rw [exec_call_of_sp_eq_castSucc nnn hj] at hcall
    cases hcall
    have htop : u.stack[j] = s.pc := by
      rw [hstack]
      exact Vector.getElem_set_self _
    rw [exec_ret_of_sp_eq_succ hsp, htop, hj]
  · rw [exec_call_of_sp_eq nnn hfull] at hcall
    cases hcall

end Sys2Proof.Machine
end

section
/-!
PROOFS. Register load and arithmetic-logic (spec/42_load_alu.md R120 to R132): the forms that write no flag,
the sum and the differences, whose flag is written first, and the shifts, whose flag is written last.
-/

namespace Sys2Proof.Machine

variable {s : State} {x : Reg} {i : Instr}

/-! ### Load, immediate add and copy (R121 to R123) -/

/-- An 8-bit sum is the sum of the numbers mod 256 (R120). -/
theorem byte_add_eq_ofNat (a b : Byte) : a + b = BitVec.ofNat 8 ((a.toNat + b.toNat) % 256) := by
  rw [← BitVec.toNat_add, BitVec.ofNat_toNat, BitVec.setWidth_eq]

/-- Settles O28: the words are encodings, and each instruction is one register write and the advance; the
immediate add is the load of the sum. -/
theorem loadAddImmediateAndCopy : Obligations.LoadAddImmediateAndCopy := fun x y kk s =>
  ⟨decode_encode (.ldImm x kk), decode_encode (.addImm x kk), decode_encode (.ldReg x y), rfl,
    congrArg (execLdImm x · s) (byte_add_eq_ofNat (s.reg x) kk), rfl⟩

/-! ### Or, and, exclusive or (R124 to R126) -/

/-- An instruction that only writes `b` to `V[x]` and advances: the bits of `V[x]` are those of `b`, and
every other register, `VF` among them, is as it was. -/
theorem exec_setReg_bits {b : Byte} {f : Nat → Bool} (h : exec i s = .next (s.setReg x b).next)
    (hbits : ∀ k, b.getLsbD k = f k) :
    ∃ t, exec i s = .next t ∧ t = { s with v := t.v, pc := s.pc + 2 } ∧
      (∀ k, (t.reg x).getLsbD k = f k) ∧ ∀ r, r ≠ x → t.reg r = s.reg r := by
  refine ⟨_, h, rfl, fun k => ?_, fun r hr => s.reg_setReg_ne b hr⟩
  rw [State.reg_next, State.reg_setReg_same, hbits]

/-- Settles O29: the three operations on bytes are the operations on their bits. -/
theorem logicOperationsBitByBit : Obligations.LogicOperationsBitByBit := fun _ _ _ =>
  ⟨exec_setReg_bits rfl fun _ => BitVec.getLsbD_or, exec_setReg_bits rfl fun _ => BitVec.getLsbD_and,
    exec_setReg_bits rfl fun _ => BitVec.getLsbD_xor⟩

/-! ### Flag first, result second (R12, R120; C1, log 8) -/

/-- The result remains, also in `VF`. -/
theorem State.reg_flagThenResult_same (s : State) (x : Reg) (c : Bool) (b : Byte) :
    (s.flagThenResult x c b).reg x = b :=
  (s.reg_flagThenResult x c b x).trans (if_pos rfl)

/-- With another destination `VF` is 1 or 0, as the test that decides `p` says. -/
theorem State.regF_flagThenResult {c : Bool} {p : Prop} [Decidable p] (hc : c = true ↔ p) (b : Byte)
    (hx : x ≠ regF) : (s.flagThenResult x c b).reg regF = if p then 1 else 0 := by
  rw [State.reg_flagThenResult, if_neg hx.symm, if_pos rfl, flagByte]
  exact if_congr hc rfl rfl

theorem State.reg_flagThenResult_ne {r : Reg} (c : Bool) (b : Byte) (hx : r ≠ x) (hf : r ≠ regF) :
    (s.flagThenResult x c b).reg r = s.reg r := by
  rw [State.reg_flagThenResult, if_neg hx, if_neg hf]

/-- Settles O30: the sum is written after the carry, and both are of the old operands. -/
theorem addSetsCarry : Obligations.AddSetsCarry := by
  intro x y s
  refine ⟨_, rfl, rfl, ?_, State.regF_flagThenResult decide_eq_true_iff _,
    fun _ => State.reg_flagThenResult_ne _ _⟩
  rw [State.reg_next, State.reg_flagThenResult_same, BitVec.toNat_add]

/-- An 8-bit difference is the difference of the numbers mod 256 (R120). -/
theorem byte_toNat_sub (a b : Byte) : ((a - b).toNat : Int) = ((a.toNat : Int) - b.toNat) % 256 := by
  have hb := b.isLt
  rw [BitVec.toNat_sub]
  omega

/-- An instruction that writes the not-borrow and then the difference of `a` and `b` (R120, R128, R130). -/
theorem exec_subtraction {a b : Byte}
    (h : exec i s = .next (s.flagThenResult x (notBorrowOf a b) (a - b)).next) :
    ∃ t, exec i s = .next t ∧ t = { s with v := t.v, pc := s.pc + 2 } ∧
      ((t.reg x).toNat : Int) = ((a.toNat : Int) - b.toNat) % 256 ∧
      (x ≠ 15 → t.reg 15 = if a.toNat ≥ b.toNat then 1 else 0) ∧
      ∀ r, r ≠ x → r ≠ 15 → t.reg r = s.reg r := by
  refine ⟨_, h, rfl, ?_, State.regF_flagThenResult decide_eq_true_iff _,
    fun _ => State.reg_flagThenResult_ne _ _⟩
  rw [State.reg_next, State.reg_flagThenResult_same, byte_toNat_sub]

/-- Settles O31: 8xy5 and 8xy7 are the two subtractions, with minuend and subtrahend exchanged. -/
theorem subtractsSetNotBorrow : Obligations.SubtractsSetNotBorrow := fun _ _ _ =>
  ⟨exec_subtraction rfl, exec_subtraction rfl⟩

/-! ### Result first, flag last (R12, R129, R131; C1, log 8) -/

/-- The flag remains, also when `VF` is the destination. -/
theorem State.regF_resultThenFlag (s : State) (x : Reg) (b : Byte) (c : Bool) :
    (s.resultThenFlag x b c).reg regF = flagByte c :=
  (s.reg_resultThenFlag x b c regF).trans (if_pos rfl)

theorem State.reg_resultThenFlag_same (b : Byte) (c : Bool) (hx : x ≠ regF) :
    (s.resultThenFlag x b c).reg x = b := by
  rw [State.reg_resultThenFlag, if_neg hx, if_pos rfl]

theorem State.reg_resultThenFlag_ne {r : Reg} (b : Byte) (c : Bool) (hx : r ≠ x) (hf : r ≠ regF) :
    (s.resultThenFlag x b c).reg r = s.reg r := by
  rw [State.reg_resultThenFlag, if_neg hf, if_neg hx]

theorem flagByte_toNat (c : Bool) : (flagByte c).toNat = c.toNat := by
  cases c with
  | false => rfl
  | true => rfl

/-- The bit a right shift moves out is the remainder by 2 (R129). -/
theorem lowBitOf_toNat (b : Byte) : (lowBitOf b).toNat = b.toNat % 2 := by
  rw [lowBitOf, BitVec.getLsbD, Nat.toNat_testBit, Nat.pow_zero, Nat.div_one]

/-- The bit a left shift moves out is the quotient by 128 (R131). -/
theorem highBitOf_toNat (b : Byte) : (highBitOf b).toNat = b.toNat / 128 := by
  have hb := b.isLt
  rw [highBitOf, BitVec.getLsbD, Nat.toNat_testBit]
  omega

/-- The source of a shift is `V[x]` or `V[y]`, as `SHIFT_SRC` says (R129, R131; D4, log 1). -/
theorem State.shiftOperand_eq (s : State) (x y : Reg) :
    s.shiftOperand x y = s.reg (if Params.shiftSrc = .vx then x else y) := by
  rw [State.shiftOperand]
  cases Params.shiftSrc with
  | vx => rfl
  | vy => rfl

/-- An instruction that writes `b` to `V[x]` and then the flag `c`, of known values `m` and `n`. -/
theorem exec_resultThenFlag {b : Byte} {c : Bool} {m n : Nat}
    (h : exec i s = .next (s.resultThenFlag x b c).next) (hb : b.toNat = m) (hc : c.toNat = n) :
    ∃ t, exec i s = .next t ∧ t = { s with v := t.v, pc := s.pc + 2 } ∧
      (x ≠ 15 → (t.reg x).toNat = m) ∧ (t.reg 15).toNat = n ∧
      ∀ r, r ≠ x → r ≠ 15 → t.reg r = s.reg r := by
  refine ⟨_, h, rfl, fun hx => ?_, ?_, fun _ => State.reg_resultThenFlag_ne _ _⟩
  · rw [State.reg_next, State.reg_resultThenFlag_same b c hx, hb]
  · rw [State.reg_next, State.regF_resultThenFlag, flagByte_toNat, hc]

/-- Settles O32: a shift by one halves or doubles the source, and the flag is its lowest or highest bit. -/
theorem shiftsSetBitShiftedOut : Obligations.ShiftsSetBitShiftedOut := by
  intro x y s src hsrc
  obtain rfl : src = s.shiftOperand x y := hsrc.trans (s.shiftOperand_eq x y).symm
  have hright (b : Byte) : (b >>> 1).toNat = b.toNat / 2 := by
    rw [BitVec.toNat_ushiftRight, Nat.shiftRight_one]
  have hleft (b : Byte) : (b <<< 1).toNat = 2 * b.toNat % 256 := by
    rw [BitVec.toNat_shiftLeft, Nat.shiftLeft_eq, Nat.mul_comm]
  exact ⟨exec_resultThenFlag rfl (hright _) (lowBitOf_toNat _),
    exec_resultThenFlag rfl (hleft _) (highBitOf_toNat _)⟩

end Sys2Proof.Machine
end

section
/-!
PROOFS. Address register and memory (spec/43_index_memory.md R140 to R146): the three forms that write `I`,
the decimal digits, and the block store and load.
-/

namespace Sys2Proof.Machine

variable {s : State} {x k : Reg}

/-! ### Writes of `I` (R141 to R143) -/

/-- A glyph's address is 5 times the low nibble, at most 75, which 16 bits hold (R143). -/
theorem glyphAddr_toNat (b : Byte) : (glyphAddr b).toNat = 5 * (b.toNat % 16) := by
  rw [glyphAddr, BitVec.toNat_ofNat, Config.fontBase, Config.glyphBytes]
  omega

/-- Settles O33: the words are encodings, and each instruction is one write of `I` and the advance. -/
theorem loadAddressAndGlyph : Obligations.LoadAddressAndGlyph := fun nnn x s =>
  ⟨decode_encode (.ldI nnn), decode_encode (.ldFont x), rfl, _, rfl, rfl, glyphAddr_toNat (s.reg x)⟩

/-- Settles O34: a 16-bit sum is the sum of the numbers mod 65536, and widening `V[x]` keeps its number. -/
theorem addToAddressWraps : Obligations.AddToAddressWraps := by
  intro x s
  refine ⟨_, rfl, rfl, ?_⟩
  rw [State.next_i, State.setI_i, BitVec.toNat_add, zext16_toNat (by decide)]

/-! ### Decimal digits (R144; D13, log 18) -/

theorem bcdHundreds_toNat (b : Byte) : (bcdHundreds b).toNat = b.toNat / 100 := by
  rw [bcdHundreds, BitVec.toNat_ofNat, Nat.mod_eq_of_lt ((Nat.div_le_self _ _).trans_lt b.isLt)]

theorem bcdTens_toNat (b : Byte) : (bcdTens b).toNat = b.toNat / 10 % 10 := by
  rw [bcdTens, BitVec.toNat_ofNat]
  omega

theorem bcdOnes_toNat (b : Byte) : (bcdOnes b).toNat = b.toNat % 10 := by
  rw [bcdOnes, BitVec.toNat_ofNat]
  omega

/-- Settles O35: the three bytes of the operand are different, also across the wrap, so each keeps the digit
written to it. -/
theorem bcdStoresThreeDigits : Obligations.BcdStoresThreeDigits := by
  intro x s
  have hne (j k : Nat) (h : j < k ∧ k < 3) : memIndex (s.dataAddr j) ≠ memIndex (s.dataAddr k) :=
    fun he => h.1.ne (s.memIndex_dataAddr_inj (by omega) (by omega) he)
  refine ⟨_, rfl, rfl, s.memIndex_dataAddr, ?_, ?_, ?_, fun a ha => ?_⟩
  all_goals simp only [State.next_mem, State.memWrite_mem]
  · rw [Memory.read_write_ne _ _ (hne 0 2 (by decide)),
      Memory.read_write_ne _ _ (hne 0 1 (by decide)), Memory.read_write_same, bcdHundreds_toNat]
  · rw [Memory.read_write_ne _ _ (hne 1 2 (by decide)), Memory.read_write_same, bcdTens_toNat]
  · rw [Memory.read_write_same, bcdOnes_toNat]
  · rw [Memory.read_write_ne _ _ (ha 2 (by decide)), Memory.read_write_ne _ _ (ha 1 (by decide)),
      Memory.read_write_ne _ _ (ha 0 (by decide))]

/-! ### Block store and load (R145, R146) -/

/-- A block store leaves every byte outside its operand (R145). -/
theorem State.read_storeRegs_of_ne {n a : Nat} (h : ∀ j < n, a ≠ memIndex (s.dataAddr j)) :
    (s.storeRegs n).mem.read a = s.mem.read a := by
  induction n with
  | zero => rfl
  | succ n ih =>
    rw [State.storeRegs, State.memWrite_mem, Memory.read_write_ne _ _ (h n n.lt_succ_self),
      ih fun j hj => h j (Nat.lt_succ_of_lt hj)]

/-- The store of `V[0..x]` leaves `V[k]` at byte `k` of the operand (R145). -/
theorem State.memRead_storeRegs_of_le (hk : k ≤ x) :
    (s.storeRegs (x.val + 1)).memRead (s.dataAddr k.val) = s.reg k :=
  s.memRead_storeRegs x.isLt (Nat.lt_succ_of_le hk) rfl

/-- The load of `V[0..x]` leaves byte `k` of the operand in `V[k]` (R146). -/
theorem State.reg_loadRegs_of_le (hk : k ≤ x) :
    (s.loadRegs (x.val + 1)).reg k = s.memRead (s.dataAddr k.val) :=
  (s.reg_loadRegs _ x.isLt k).trans (if_pos (Nat.lt_succ_of_le hk))

/-- The load of `V[0..x]` leaves the registers above `x` (R146). -/
theorem State.reg_loadRegs_of_lt (hk : x < k) : (s.loadRegs (x.val + 1)).reg k = s.reg k :=
  (s.reg_loadRegs _ x.isLt k).trans (if_neg (Nat.not_lt.mpr hk))

/-- Settles O36: a block store and the advance; the bytes of the operand are those of the registers up to
`x`. -/
theorem blockStoreWritesRegisters : Obligations.BlockStoreWritesRegisters := fun x s =>
  ⟨_, rfl, congrArg State.next (s.storeRegs_frame _), fun _ => State.memRead_storeRegs_of_le,
    fun _ ha => State.read_storeRegs_of_ne fun j hj =>
      ha ⟨j, hj.trans_le x.isLt⟩ (Nat.le_of_lt_succ hj)⟩

/-- Settles O37: a block load and the advance; the operand's bytes lie at `(I + k) mod 4096`. -/
theorem blockLoadReadsRegisters : Obligations.BlockLoadReadsRegisters := by
  intro x s
  refine ⟨_, rfl, congrArg State.next (s.loadRegs_frame _), fun k hk => ?_,
    fun k => State.reg_loadRegs_of_lt⟩
  rw [State.reg_next, State.reg_loadRegs_of_le hk, State.memRead, State.memIndex_dataAddr]

/-- Settles O38: the load reads the operand the store wrote, since memory and `I` are as the store left
them (D12). -/
theorem storeThenLoadRestores : Obligations.StoreThenLoadRestores := by
  intro x s t u w hstore hmem hi hload k hk
  cases hstore
  cases hload
  calc (u.loadRegs (x.val + 1)).next.reg k
      = u.memRead (u.dataAddr k.val) := State.reg_loadRegs_of_le hk
    _ = (s.storeRegs (x.val + 1)).next.memRead (s.dataAddr k.val) := by
      rw [State.memRead_of_mem hmem, State.dataAddr_of_i hi]
    _ = s.reg k := State.memRead_storeRegs_of_le hk

end Sys2Proof.Machine
end

section
/-!
PROOFS. The random instruction (spec/44_random.md R160 to R164): what Cxkk leaves in the generator and in its
register, and that no other event but reset moves the generator.
-/

namespace Sys2Proof.Machine

variable {s : State} {e : Event}

/-! ### The byte of the new generator state (R162, R164) -/

/-- The output byte is a slice: its bit `b` is bit `lo + b` of the generator (R162). -/
theorem lcgByte_getLsbD (lo r b : Nat) :
    (lcgByte lo r).getLsbD b = (decide (b < 8) && r.testBit (lo + b)) := by
  rw [lcgByte, BitVec.getLsbD_ofNat, Nat.testBit_div_two_pow, Nat.add_comm]

/-- Settles O41: the generator advances first, and the byte written is a slice of its new state. -/
theorem randomMasksNewByte : Obligations.RandomMasksNewByte := by
  intro x kk s
  refine ⟨_, rfl, rfl, rfl, fun b => ?_, fun r hr => s.advanceRng.reg_setReg_ne _ hr⟩
  rw [State.reg_next, State.reg_setReg_same, BitVec.getLsbD_and, State.rngByte, lcgByte_getLsbD]
  rfl

/-! ### Which words advance the generator (R161, R164) -/

/-- The words that decode to a Cxkk are those of major opcode 0xC. -/
theorem exists_decode_eq_rnd_iff (w : Word) :
    (∃ x kk, decode w = .ok (.rnd x kk)) ↔ fieldN0 w = 0xC := by
  constructor
  · rintro ⟨x, kk, hd⟩
    rw [← encode_of_decode hd]
    exact fieldN0_formXKK ..
  · intro hop
    exact ⟨fieldX w, fieldKK w, by simp [decode, hop]⟩

/-! ### What each event leaves in the generator -/

/-- The step event leaves the state as it was, or the step completes in the state it leaves (R80, R214). -/
theorem stepEvent_eq_self_or_step_eq_next (s : State) :
    (stepEvent s).1 = s ∨ step s = .next (stepEvent s).1 := by
  unfold stepEvent
  cases step s with
  | next t => exact .inr rfl
  | fault f => exact .inl rfl
  | refused r => exact .inl rfl

/-- A step whose word is a Cxkk completes with the generator advanced once (R161). -/
theorem stepEvent_rng_of_rnd (h : fieldN0 s.fetch = 0xC) :
    (stepEvent s).1.rng = s.advanceRng.rng := by
  obtain ⟨x, kk, hd⟩ := (exists_decode_eq_rnd_iff _).mpr h
  rw [stepEvent, step_of_decode hd]
  rfl

/-- A step whose word is no Cxkk, completed or not, leaves the generator (R26, R214). -/
theorem stepEvent_rng_of_ne_rnd (h : fieldN0 s.fetch ≠ 0xC) : (stepEvent s).1.rng = s.rng := by
  obtain hself | hnext := stepEvent_eq_self_or_step_eq_next s
  · rw [hself]
  · obtain ⟨i, u, hd, he, ht⟩ := step_eq_next.mp hnext
    rw [ht, State.clearKeys_rng]
    refine exec_rng he fun x kk hi => h ?_
    exact (exists_decode_eq_rnd_iff _).mp ⟨x, kk, hi ▸ hd⟩

/-- An event other than a reset and a step leaves the generator: the load, also where it is refused, the
key and the tick write other pieces of state (R221, R225, R253). -/
theorem applyEvent_rng (hreset : e ≠ .reset) (hstep : e ≠ .step) :
    (applyEvent e s).1.rng = s.rng := by
  cases e with
  | reset => exact absurd rfl hreset
  | step => exact absurd rfl hstep
  | setKey k => rfl
  | timerTick => rfl
  | loadProgram l =>
    simp only [applyEvent, loadProgram]
    by_cases h : Config.memSize ≤ Config.progBase + l.length
    · rw [if_pos h]
    · rw [if_neg h]

/-- Settles O16: a step by its major opcode, and the three events that are neither step nor reset. -/
theorem generatorAdvancesOncePerRandom : Obligations.GeneratorAdvancesOncePerRandom := by
  intro e s hreset
  by_cases hstep : e = .step
  · subst hstep
    by_cases hop : fieldN0 s.fetch = 0xC
    · exact (stepEvent_rng_of_rnd hop).trans (if_pos ⟨rfl, hop⟩).symm
    · exact (stepEvent_rng_of_ne_rnd hop).trans (if_neg fun h => hop h.2).symm
  · exact (applyEvent_rng hreset hstep).trans (if_neg fun h => hstep h.1).symm

end Sys2Proof.Machine
end

section
/-!
PROOFS. The display (spec/45_display.md R170 to R174): the clear, and what one draw and two draws of a sprite
leave in the framebuffer and in `VF`.
-/

namespace Sys2Proof.Machine

variable {s t u : State} {x y : Reg} {n : Fin 16}

/-- Settles O42: the word is the encoding of CLS, which writes the dark framebuffer and nothing else. -/
theorem clearDarkensEveryCell : Obligations.ClearDarkensEveryCell := fun _ =>
  ⟨decode_encode .cls, _, rfl, rfl, Framebuffer.pixel_dark⟩

/-! ### What one draw leaves (R172, R173) -/

theorem flagByte_eq_one_iff (b : Bool) : flagByte b = 1 ↔ b = true := by
  cases b with
  | false => decide
  | true => decide

theorem flagByte_eq_zero_iff (b : Bool) : flagByte b = 0 ↔ ¬ b = true := by
  cases b with
  | false => decide
  | true => decide

/-- A draw writes `VF`, the framebuffer and `pc` alone; `I` is not among them (R26; D12, log 14). -/
theorem exec_drw_frame (h : exec (.drw x y n) s = .next t) :
    t = { s with v := t.v, fb := t.fb, pc := s.pc + 2 } := by
  cases h; rfl

/-- Each cell is toggled exactly when the sprite has a 1 bit over it; a sprite is shorter than the screen, so
no cell meets two of its rows (R173 (f)). -/
theorem exec_drw_pixel (h : exec (.drw x y n) s = .next t) (r : Fin 32) (c : Fin 64) :
    t.fb.pixel r c = (s.fb.pixel r c ^^ s.spriteBit (s.reg x) (s.reg y) n.val r c) := by
  cases h; exact s.drawSprite_pixel _ _ _ (by omega) r c

/-- The flag is the hit of the draw, which is written last (R173 (d); D16, log 11). -/
theorem exec_drw_regF (h : exec (.drw x y n) s = .next t) :
    t.reg regF = flagByte (s.drawSprite (s.reg x) (s.reg y) n.val).hit := by
  cases h; exact State.reg_setReg_same ..

/-- The hit of a draw, by the loop-free picture of the sprite (R172). -/
theorem State.drawSprite_hit_iff_underBit (s : State) (vx vy : Byte) {n : Nat} (hn : n ≤ 32) :
    (s.drawSprite vx vy n).hit = true ↔ ∃ r c, s.underBit vx vy n r c ∧ s.fb.pixel r c = true := by
  simp only [s.drawSprite_hit vx vy n hn, s.spriteBit_iff_underBit vx vy n hn]

theorem exec_drw_regF_eq_one_iff (h : exec (.drw x y n) s = .next t) :
    t.reg regF = 1 ↔
      ∃ r c, s.underBit (s.reg x) (s.reg y) n.val r c ∧ s.fb.pixel r c = true := by
  rw [exec_drw_regF h, flagByte_eq_one_iff, s.drawSprite_hit_iff_underBit _ _ (by omega)]

theorem exec_drw_regF_eq_zero_iff (h : exec (.drw x y n) s = .next t) :
    t.reg regF = 0 ↔
      ¬ ∃ r c, s.underBit (s.reg x) (s.reg y) n.val r c ∧ s.fb.pixel r c = true := by
  rw [exec_drw_regF h, flagByte_eq_zero_iff, s.drawSprite_hit_iff_underBit _ _ (by omega)]

/-- A cell under a 1 bit is inverted (R172). -/
theorem exec_drw_pixel_of_underBit (h : exec (.drw x y n) s = .next t) {r : Fin 32} {c : Fin 64}
    (hb : s.underBit (s.reg x) (s.reg y) n.val r c) : t.fb.pixel r c = !s.fb.pixel r c := by
  rw [exec_drw_pixel h, (s.spriteBit_iff_underBit _ _ _ (by omega) r c).mpr hb, Bool.xor_true]

/-- A cell under no 1 bit is as it was (R173 (a)). -/
theorem exec_drw_pixel_of_not_underBit (h : exec (.drw x y n) s = .next t) {r : Fin 32} {c : Fin 64}
    (hb : ¬ s.underBit (s.reg x) (s.reg y) n.val r c) : t.fb.pixel r c = s.fb.pixel r c := by
  rw [← s.spriteBit_iff_underBit _ _ _ (by omega), Bool.not_eq_true] at hb
  rw [exec_drw_pixel h, hb, Bool.xor_false]

/-- Settles O43: a draw always completes, with each cell toggled by the sprite's bit over it and the flag of
its hit. -/
theorem drawInvertsCellsUnderTheSprite : Obligations.DrawInvertsCellsUnderTheSprite := by
  intro x y n s
  obtain ⟨t, ht⟩ : ∃ t, exec (.drw x y n) s = .next t := ⟨_, rfl⟩
  exact ⟨t, ht, exec_drw_frame ht, fun _ _ => exec_drw_pixel_of_underBit ht,
    fun _ _ => exec_drw_pixel_of_not_underBit ht, (exec_drw_regF_eq_one_iff ht).mpr,
    (exec_drw_regF_eq_zero_iff ht).mpr, fun _ hr => exec_reg ht (beq_false_of_ne hr)⟩

/-! ### The same sprite drawn twice (R174) -/

/-- The picture of a sprite is a matter of memory and `I` alone. -/
theorem State.underBit_of_mem_of_i (hmem : u.mem = s.mem) (hi : u.i = s.i) (vx vy : Byte) (n : Nat)
    (r : Fin 32) (c : Fin 64) : u.underBit vx vy n r c ↔ s.underBit vx vy n r c := by
  simp only [State.underBit, hi, State.memRead_of_mem hmem]

/-- Settles O44: the second draw has the picture of the first, so it inverts the same cells back, and the
cells it finds lit are those the first found unlit. -/
theorem doubleDrawRestoresFramebuffer : Obligations.DoubleDrawRestoresFramebuffer := by
  intro x y n s t u w hst hfb hmem hi hx hy huw
  have hsame (r c) : u.underBit (u.reg x) (u.reg y) n.val r c ↔
      s.underBit (s.reg x) (s.reg y) n.val r c := by
    rw [hx, hy]
    exact State.underBit_of_mem_of_i hmem hi ..
  refine ⟨Framebuffer.ext_pixel fun r c => ?_, (exec_drw_regF_eq_one_iff huw).trans ?_⟩
  · by_cases hb : s.underBit (s.reg x) (s.reg y) n.val r c
    · rw [exec_drw_pixel_of_underBit huw ((hsame r c).mpr hb), hfb, exec_drw_pixel_of_underBit hst hb,
        Bool.not_not]
    · rw [exec_drw_pixel_of_not_underBit huw (mt (hsame r c).mp hb), hfb,
        exec_drw_pixel_of_not_underBit hst hb]
  · refine exists_congr fun r => exists_congr fun c => ?_
    rw [hsame]
    refine and_congr_right fun hb => ?_
    rw [hfb, exec_drw_pixel_of_underBit hst hb, Bool.not_eq_true']

end Sys2Proof.Machine
end

section
/-!
PROOFS. Keypad and timers (spec/46_keypad_timers.md R190 to R197): the two key skips, the key wait, and the
reads and writes of the timers, with what ticks after Fx18 leave of the buzzer.
-/

namespace Sys2Proof.Machine

variable {s u : State} {x : Reg} {i : Instr} {k : Key}

/-! ### Key skips (R190 to R192) -/

/-- The key a register value names is the one of its low four bits (R190). -/
theorem keyOf_eq {b : Byte} (h : k.val = b.toNat % 16) : keyOf b = k := by
  rw [keyOf, ← h]
  exact Fin.ofNat_val_eq_self k

/-- A step whose instruction completes consumes every key (R80, R87). -/
theorem step_of_exec_eq_next (hd : decode s.fetch = .ok i) (he : exec i s = .next u) :
    ∃ t, step s = .next t ∧ ∀ j : Key, t.keyDown j = false :=
  ⟨u.clearKeys, step_eq_next.mpr ⟨i, u, hd, he, rfl⟩, u.keyDown_clearKeys⟩

/-- Settles O45: the two tests read the key `k` and its negation, and a step of either completes. -/
theorem keySkipsTestOneKey : Obligations.KeySkipsTestOneKey := by
  intro x s k hk
  have hkey : keyOf (s.reg x) = k := keyOf_eq hk
  refine ⟨decode_encode (.skp x), decode_encode (.sknp x), ?_, ?_, ?_⟩
  · rw [exec, execSkp, hkey]
    exact congrArg _ (State.skipIf_of_iff Iff.rfl)
  · rw [exec, execSknp, hkey]
    exact congrArg _ (State.skipIf_of_iff (Bool.not_eq_true' _).to_iff)
  · rintro (hd | hd)
    · exact step_of_exec_eq_next hd rfl
    · exact step_of_exec_eq_next hd rfl

/-! ### Key wait (R193) -/

/-- Fx0A with no key latched runs again at the next step (R85, R193). -/
theorem exec_ldVxKey_of_none (h : s.leastKey = none) : exec (.ldVxKey x) s = .next s := by
  rw [exec, execLdVxKey, h]

/-- Fx0A takes the least latched key (R193; D15, log 10). -/
theorem exec_ldVxKey_of_some (h : s.leastKey = some k) :
    exec (.ldVxKey x) s = .next (s.setReg x (BitVec.ofNat 8 k.val)).next := by
  rw [exec, execLdVxKey, h]

/-- Settles O46: the search for the least key finds none, or it finds `k`. -/
theorem keyWaitHoldsOrTakesLeastKey : Obligations.KeyWaitHoldsOrTakesLeastKey := fun _ s =>
  ⟨fun hnone => exec_ldVxKey_of_none (s.leastKey_eq_none.mpr hnone),
    fun k hk hleast => exec_ldVxKey_of_some ((s.leastKey_eq_some k).mpr ⟨hk, hleast⟩)⟩

/-! ### The delay timer (R194, R195) -/

/-- Settles O47: the words are encodings, and each instruction is one write and the advance. -/
theorem delayTimerReadAndSet : Obligations.DelayTimerReadAndSet := fun x _ =>
  ⟨decode_encode (.ldVxDt x), decode_encode (.ldDtVx x), rfl, rfl⟩

/-! ### The sound timer (R196, R221, R228) -/

/-- `k` ticks take `k` from the sound timer, which stops at 0 (R221). -/
theorem applyEvents_timerTick_st_toNat (k : Nat) (s : State) :
    (applyEvents (List.replicate k .timerTick) s).st.toNat = s.st.toNat - k := by
  induction k generalizing s with
  | zero => rfl
  | succ k ih =>
    calc (applyEvents (List.replicate k .timerTick) (timerTick s)).st.toNat
        = (tickDown s.st).toNat - k := ih _
      _ = s.st.toNat - (k + 1) := by rw [tickDown_toNat, Nat.sub_sub, Nat.add_comm]

/-- The buzzer sounds until as many ticks have come as the sound timer holds (R221, R228). -/
theorem soundActive_applyEvents_timerTick (k : Nat) (s : State) :
    (applyEvents (List.replicate k .timerTick) s).soundActive = decide (k < s.st.toNat) := by
  rw [State.soundActive, applyEvents_timerTick_st_toNat]
  exact decide_eq_decide.mpr Nat.sub_pos_iff_lt

/-- Settles O48: the sound timer is `V[x]` when the ticks begin. -/
theorem soundTimerSetsBuzzer : Obligations.SoundTimerSetsBuzzer := by
  intro x s
  refine ⟨decode_encode (.ldStVx x), rfl, fun t k h => ?_⟩
  cases h
  exact soundActive_applyEvents_timerTick k _

end Sys2Proof.Machine
end

section
/-!
PROOFS. Exceptions and driver events (spec/60_exceptions.md R210 to R229): when a step faults and with which
fault, that a fault changes nothing, and what the driver's events leave.
-/

namespace Sys2Proof.Machine

variable {s t : State} {i : Instr} {f : Fault} {w : Word}

/-! ### What an instruction can answer (R210, R266) -/

/-- An instruction completes, but for 00EE on an empty stack and 2nnn on a full one (R211, R212). -/
theorem exec_completes_or_faults (i : Instr) (s : State) :
    (∃ t, exec i s = .next t) ∨
      (i = .ret ∧ s.sp = 0 ∧ exec i s = .fault .stackUnderflow) ∨
      ∃ nnn, i = .call nnn ∧ s.sp = 16 ∧ exec i s = .fault .stackOverflow := by
  cases i with
  | ret =>
    obtain hempty | ⟨j, hj⟩ := s.sp.eq_zero_or_eq_succ
    · exact .inr (.inl ⟨rfl, hempty, exec_ret_of_sp_eq_zero hempty⟩)
    · exact .inl ⟨_, exec_ret_of_sp_eq_succ hj⟩
  | call nnn =>
    obtain ⟨j, hj⟩ | hfull := s.sp.eq_castSucc_or_eq_last
    · exact .inl ⟨_, exec_call_of_sp_eq_castSucc nnn hj⟩
    · exact .inr (.inr ⟨nnn, rfl, hfull, exec_call_of_sp_eq nnn hfull⟩)
  | ldVxKey x =>
    cases hkey : s.leastKey with
    | none => exact .inl ⟨_, exec_ldVxKey_of_none hkey⟩
    | some k => exact .inl ⟨_, exec_ldVxKey_of_some hkey⟩
  | _ => exact .inl ⟨_, rfl⟩

/-- The two faults of an instruction, each with its one cause (R211, R212). -/
theorem exec_eq_fault :
    exec i s = .fault f ↔
      (f = .stackUnderflow ∧ i = .ret ∧ s.sp = 0) ∨
        f = .stackOverflow ∧ (∃ nnn, i = .call nnn) ∧ s.sp = 16 := by
  constructor
  · intro h
    obtain ⟨t, he⟩ | ⟨hi, hsp, he⟩ | ⟨nnn, hi, hsp, he⟩ := exec_completes_or_faults i s
    · cases he.symm.trans h
    · cases he.symm.trans h
      exact .inl ⟨rfl, hi, hsp⟩
    · cases he.symm.trans h
      exact .inr ⟨rfl, ⟨nnn, hi⟩, hsp⟩
  · rintro (⟨rfl, rfl, hsp⟩ | ⟨rfl, ⟨nnn, rfl⟩, hsp⟩)
    · exact exec_ret_of_sp_eq_zero hsp
    · exact exec_call_of_sp_eq nnn hsp

/-- Settles O11: a word that does not decode faults, and the end of a step keeps an instruction's answer. -/
theorem everyStepCompletesOrFaults : Obligations.EveryStepCompletesOrFaults := by
  intro s
  cases hd : decode s.fetch with
  | error r => exact .inr ⟨_, step_eq_fault.mpr (.inl ⟨⟨r, hd⟩, rfl⟩)⟩
  | ok i =>
    obtain ⟨u, he⟩ | ⟨-, -, he⟩ | ⟨_, -, -, he⟩ := exec_completes_or_faults i s
    · exact .inl ⟨_, step_eq_next.mpr ⟨i, u, hd, he, rfl⟩⟩
    · exact .inr ⟨_, step_eq_fault.mpr (.inr ⟨i, hd, he⟩)⟩
    · exact .inr ⟨_, step_eq_fault.mpr (.inr ⟨i, hd, he⟩)⟩

/-! ### The words that can fault (R64, R67) -/

theorem exists_decode_eq_error_iff :
    (∃ r, decode w = .error r) ↔ wordWellFormed w = false := by
  rw [← Bool.not_eq_true, wordWellFormed_iff, ← exists_decode_iff_exists_row]
  cases decode w with
  | error r => simp
  | ok i => simp

theorem decode_eq_ret_iff : decode w = .ok .ret ↔ w = 0x00EE :=
  ⟨decode_eq_ret, fun h => h ▸ decode_encode .ret⟩

/-- The words that decode to a 2nnn are those of major opcode 2. -/
theorem exists_decode_eq_call_iff : (∃ nnn, decode w = .ok (.call nnn)) ↔ fieldN0 w = 2 := by
  constructor
  · rintro ⟨nnn, hd⟩
    rw [← encode_of_decode hd]
    exact fieldN0_formNNN ..
  · intro hop
    exact ⟨fieldNNN w, by simp [decode, hop]⟩

/-! ### The faults of a step, each with its one cause (R210 to R213) -/

/-- A step faults on a word of no row, on 00EE with an empty stack and on 2nnn with a full one, and in no
other case. -/
theorem step_eq_fault_iff :
    step s = .fault f ↔
      (f = .unknownOpCode ∧ wordWellFormed s.fetch = false) ∨
        (f = .stackUnderflow ∧ s.fetch = 0x00EE ∧ s.sp = 0) ∨
        f = .stackOverflow ∧ fieldN0 s.fetch = 2 ∧ s.sp = 16 := by
  rw [step_eq_fault, exists_decode_eq_error_iff, and_comm, ← decode_eq_ret_iff,
    ← exists_decode_eq_call_iff]
  refine or_congr_right ⟨?_, ?_⟩
  · rintro ⟨i, hd, he⟩
    obtain ⟨hf, rfl, hsp⟩ | ⟨hf, ⟨nnn, rfl⟩, hsp⟩ := exec_eq_fault.mp he
    · exact .inl ⟨hf, hd, hsp⟩
    · exact .inr ⟨hf, ⟨nnn, hd⟩, hsp⟩
  · rintro (⟨hf, hd, hsp⟩ | ⟨hf, ⟨nnn, hd⟩, hsp⟩)
    · exact ⟨.ret, hd, exec_eq_fault.mpr (.inl ⟨hf, rfl, hsp⟩)⟩
    · exact ⟨.call nnn, hd, exec_eq_fault.mpr (.inr ⟨hf, ⟨nnn, rfl⟩, hsp⟩)⟩

theorem step_eq_unknownOpCode : step s = .fault .unknownOpCode ↔ wordWellFormed s.fetch = false := by
  simp [step_eq_fault_iff]

theorem step_eq_stackUnderflow :
    step s = .fault .stackUnderflow ↔ s.fetch = 0x00EE ∧ s.sp = 0 := by
  simp [step_eq_fault_iff]

theorem step_eq_stackOverflow :
    step s = .fault .stackOverflow ↔ fieldN0 s.fetch = 2 ∧ s.sp = 16 := by
  simp [step_eq_fault_iff]

/-! ### A fault changes nothing (R214, R216) -/

/-- The step event reports the fault of its step, and then its state is the state before. -/
theorem stepEvent_eq_fault : stepEvent s = (t, some f) ↔ t = s ∧ step s = .fault f := by
  unfold stepEvent
  cases step s with
  | next u => simp
  | fault g => simp [eq_comm]
  | refused r => simp

theorem stepEvent_of_step_eq_fault (h : step s = .fault f) : stepEvent s = (s, some f) :=
  stepEvent_eq_fault.mpr ⟨rfl, h⟩

/-- Settles O9: UnknownOpCode has the one cause, and a fault changes nothing. -/
theorem unknownWordFaultsAndChangesNothing : Obligations.UnknownWordFaultsAndChangesNothing :=
  fun _ => ⟨step_eq_unknownOpCode,
    fun h => stepEvent_of_step_eq_fault (step_eq_unknownOpCode.mpr h), rfl⟩

/-- S7: a return as the first instruction after reset. -/
theorem step_reset_ret : step (State.reset.withFetchWord 16 0x00EE) = .fault .stackUnderflow :=
  step_eq_stackUnderflow.mpr ⟨(placedWordIsFetched State.reset 0x00EE).1, rfl⟩

/-- Settles O10: each stack fault has the one cause, and a fault changes nothing. -/
theorem stackFaultsExactly : Obligations.StackFaultsExactly := fun _ =>
  ⟨step_eq_stackUnderflow, step_eq_stackOverflow, stepEvent_of_step_eq_fault,
    stepEvent_of_step_eq_fault, step_reset_ret, rfl, rfl⟩

/-- Settles O12: the second step starts from the state of the first. -/
theorem faultIsFixedPointOfStep : Obligations.FaultIsFixedPointOfStep := by
  intro s t f h
  obtain ⟨rfl, -⟩ := stepEvent_eq_fault.mp h
  exact ⟨rfl, h⟩

/-! ### The invariant through the events (R224) -/

/-- A load that is not refused stays inside memory, and writes nothing else (R253, R254). -/
theorem loadProgram_eq_some {l : List Byte} (h : loadProgram l s = some t) :
    0x200 + l.length < 4096 ∧ t = { s with mem := copyBytes l 0x200 s.mem } := by
  unfold loadProgram at h
  split at h
  · cases h
  · next hlen => cases h; exact ⟨Nat.lt_of_not_le hlen, rfl⟩

theorem State.Inv.loadProgram {l : List Byte} (hs : s.Inv) (h : loadProgram l s = some t) : t.Inv := by
  obtain ⟨hlen, rfl⟩ := loadProgram_eq_some h
  obtain ⟨hmem, hrng⟩ := hs
  exact ⟨wf_copyBytes l hlen.le hmem, hrng⟩

theorem State.Inv.stepEvent (hs : s.Inv) : (stepEvent s).1.Inv := by
  obtain hself | hnext := stepEvent_eq_self_or_step_eq_next s
  · rwa [hself]
  · exact stepKeepsInvariant s _ hs hnext

/-- Settles O18: a step and a load keep the invariant, reset sets it up, and the other two events write
neither memory nor the generator. -/
theorem eventsKeepInvariant : Obligations.EventsKeepInvariant := by
  intro e s hs
  cases e with
  | reset => exact resetHasInvariant
  | loadProgram l =>
    rw [applyEvent]
    cases hl : loadProgram l s with
    | none => exact hs
    | some t => exact hs.loadProgram hl
  | setKey k => exact hs.of_eq rfl rfl
  | step => exact hs.stepEvent
  | timerTick => exact hs.of_eq rfl rfl

/-! ### The tick and the key (R221, R225) -/

theorem tickDown_toNat_add_one {b : Byte} (h : 0 < b.toNat) : (tickDown b).toNat + 1 = b.toNat := by
  rw [tickDown_toNat, Nat.sub_add_cancel h]

theorem tickDown_eq_zero {b : Byte} (h : b = 0) : tickDown b = 0 := if_pos h

/-- Settles O51: the tick takes each timer down on its own. -/
theorem timerTickCountsDownToZero : Obligations.TimerTickCountsDownToZero := fun s =>
  ⟨timerTick s, rfl, rfl, tickDown_toNat_add_one, tickDown_eq_zero, tickDown_toNat_add_one,
    tickDown_eq_zero⟩

/-- Settles O52: after the event a key is down when it is `k` or was down before. -/
theorem setKeyLatchesOneKey : Obligations.SetKeyLatchesOneKey := by
  intro k s
  refine ⟨setKey k s, rfl, rfl, ?_, fun j hj => ?_⟩
  · rw [keyDown_setKey, decide_eq_true rfl, Bool.true_or]
  · rw [keyDown_setKey, decide_eq_false hj, Bool.false_or]

end Sys2Proof.Machine
end

section
/-!
PROOFS. Program load (spec/70_reset_and_hazards.md R253, R254): which loads are refused, and the bytes that
a load writes and leaves.
-/

namespace Sys2Proof.Machine

variable {s : State} {l : List Byte}

/-! ### The two answers of a load (R254) -/

/-- A load that reaches the guard byte or passes it is refused (R254). -/
theorem loadProgram_of_le (h : 4096 ≤ 0x200 + l.length) : loadProgram l s = none := if_pos h

/-- A load that ends below the guard byte copies its bytes, and writes nothing but memory. -/
theorem loadProgram_of_lt (h : 0x200 + l.length < 4096) :
    loadProgram l s = some { s with mem := copyBytes l 0x200 s.mem } := if_neg h.not_ge

/-- A refused load writes nothing (D19, log 16). -/
theorem applyEvent_loadProgram_of_le (h : 4096 ≤ 0x200 + l.length) :
    applyEvent (.loadProgram l) s = (s, .outOfBounds) := by
  rw [applyEvent, loadProgram_of_le h]

theorem applyEvent_loadProgram_of_lt (h : 0x200 + l.length < 4096) :
    applyEvent (.loadProgram l) s = ({ s with mem := copyBytes l 0x200 s.mem }, .loaded) := by
  rw [applyEvent, loadProgram_of_lt h]

/-! ### The bytes of a copy, inside and outside (R253) -/

theorem read_copyBytes_add (a : Nat) (m : Memory) (k : Fin l.length) :
    (copyBytes l a m).read (a + k.val) = l[k] := by
  have hin : a ≤ a + k.val ∧ a + k.val < a + l.length :=
    ⟨Nat.le_add_right a k.val, Nat.add_lt_add_left k.isLt a⟩
  rw [read_copyBytes, dif_pos hin]
  simp only [Nat.add_sub_cancel_left, Fin.getElem_fin]

theorem read_copyBytes_outside {a b : Nat} (m : Memory) (h : b < a ∨ a + l.length ≤ b) :
    (copyBytes l a m).read b = m.read b := by
  rw [read_copyBytes, dif_neg (by omega)]

/-- Settles O53: the bound decides between refusal and copy, and the copy's bytes are the program's inside
`0x200` to `0x200 + len` and memory's own outside. -/
theorem loadProgramCopiesOrRefuses : Obligations.LoadProgramCopiesOrRefuses := fun _ s =>
  ⟨applyEvent_loadProgram_of_le, fun hlt => ⟨_, applyEvent_loadProgram_of_lt hlt, rfl,
    read_copyBytes_add 0x200 s.mem, fun _ => read_copyBytes_outside s.mem⟩⟩

end Sys2Proof.Machine
end
